-- ==== Sys2Proof/Word.lean ====
section
/-! DEFINITION. The word and the byte (00_scope.md R9, R10), and zero extension. -/

namespace Sys2Proof

/-- A word: a 32-bit unsigned integer, bit 0 the least significant (R9). -/
abbrev Word := BitVec 32

/-- The unit of the debugger's byte view (10_state.md R33). -/
abbrev Byte := BitVec 8

end Sys2Proof
end

