-- ==== Sys2Proof/Syntax.lean ====
section
/-! DEFINITION. The instructions: one constructor per row of spec/opcode_table.json. Four rows are the
Encoder's combinational operations (41_encoder.md), eight are request selectors (30_encoding.md R74). -/

namespace Sys2Proof

/-- The operations of TFIFO. Contexts and units are named by their index in the configuration's lists
(context 0 is MAIN). Operand widths are those of 30_encoding.md R74: 32 bits, but the verbosity `v`, an
integer (43_log_requests.md R137), and the slot index `i`, which the configuration bounds. -/
inductive Instr where
  /-- `ENC_FE(module_id, fid)` (R91). -/
  | encFe (moduleId fid : Word)
  /-- `ENC_FX(module_id, fid)` (R92). -/
  | encFx (moduleId fid : Word)
  /-- `ENC_LE(module_id, eid, payload)` (R93). -/
  | encLe (moduleId eid payload : Word)
  /-- `ENC_GE(module_id, eid, payload)` (R94). -/
  | encGe (moduleId eid payload : Word)
  /-- `APPEND rec, w`, issued by context `ctx` (R136). -/
  | append (ctx : Nat) (record : Bool) (w : Word)
  /-- `LOG_FE v, fid`, issued by `ctx` from unit `unit` (R139). -/
  | logFe (ctx unit : Nat) (v : Int) (fid : Word)
  /-- `LOG_FX v, fid` (R140). -/
  | logFx (ctx unit : Nat) (v : Int) (fid : Word)
  /-- `LOG_LE v, eid, payload` (R141). -/
  | logLe (ctx unit : Nat) (v : Int) (eid payload : Word)
  /-- `LOG_GE v, eid, payload` (R142). -/
  | logGe (ctx unit : Nat) (v : Int) (eid payload : Word)
  /-- `DBG_RD_SLOT i`, issued by the debugger (R156). -/
  | dbgRdSlot (i : Nat)
  /-- `DBG_RD_CURSOR`, issued by the debugger (R157). -/
  | dbgRdCursor
  /-- The reserved selector `111` (R75). -/
  | reserved
  deriving DecidableEq, Repr, Inhabited

end Sys2Proof
end

