-- ==== Sys2Proof/Config.lean ====
section
/-! DEFINITION. The build parameters of 00_scope.md R7, their legal values, the build State.reset has, the
kinds of choice the environment makes (60_exceptions.md R169), and the free choice. -/

namespace Sys2Proof

/-- The write policy (R4): mask interrupts during an append, or never. -/
inductive Policy where
  | mask
  | nomask
  deriving DecidableEq, Repr, Inhabited

/-- Byte order of the debugger's view (R42). -/
inductive Endian where
  | little
  | big
  deriving DecidableEq, Repr, Inhabited

/-- A compilation unit's build-time constants (R138): `MODULE_ID(u)` and `THRESHOLD(u)`. -/
structure UnitCfg where
  moduleId : Word
  threshold : Int
  deriving DecidableEq, Repr, Inhabited

/-- The parameters of R7, fixed for the life of the hardware (R31). Units and contexts are named by their
place in `units` and `prios`; context 0 is `MAIN`. -/
structure Config where
  /-- log2 of the capacity. -/
  k : Nat
  policy : Policy
  /-- The master enable. -/
  enable : Bool
  typeFe : BitVec 4
  typeFx : BitVec 4
  typeLe : BitVec 4
  typeGe : BitVec 4
  units : List UnitCfg
  /-- `PRIO(c)` of each context `c` of `CTX`. -/
  prios : List Nat
  maskCeiling : Nat
  endian : Endian
  storageBase : Nat
  cursorAddr : Nat
  deriving DecidableEq, Repr, Inhabited

/-- The capacity in words, `N = 2^K`. -/
abbrev Config.n (c : Config) : Nat := 2 ^ c.k

/-- The context `MAIN`. -/
abbrev mainCtx : Nat := 0

/-- `PRIO(c)` (R168). -/
def Config.prio (c : Config) (ctx : Nat) : Nat := c.prios.getD ctx 0

/-- Byte address of slot `i` in the out-of-band view (R40). -/
def Config.slotAddr (c : Config) (i : Nat) : Nat := c.storageBase + 4 * i

/-- The legal values of R7: the bound on `K`, four distinct type codes, a non-empty `UNITS`, `MAIN` at priority
0 and every other context at 1 or more, and two aligned regions of the 32-bit byte view (10_state.md R33) that do not
overlap. With `K = 30` the storage fills that view, and the cursor word has no address in it (log entry 5). -/
abbrev Config.Wf (c : Config) : Prop :=
  c.k ≤ 30 ∧
  [c.typeFe, c.typeFx, c.typeLe, c.typeGe].Nodup ∧
  c.units ≠ [] ∧
  c.prios.head? = some 0 ∧
  (∀ p ∈ c.prios.tail, 1 ≤ p) ∧
  c.storageBase % 4 = 0 ∧
  c.storageBase + 4 * c.n ≤ 2 ^ 32 ∧
  c.cursorAddr % 4 = 0 ∧
  (c.k < 30 → c.cursorAddr + 4 ≤ 2 ^ 32) ∧
  (c.cursorAddr + 4 ≤ c.storageBase ∨ c.storageBase + 4 * c.n ≤ c.cursorAddr)

/-- The build of State.reset: `CFG_DEFAULT` of R8 (K = 10, ENABLE = 1, types 1 to 4, LITTLE), with the
parameters R8 leaves open chosen in the assumption log (entries 2 to 6). -/
def Config.default : Config where
  k := 10
  policy := .mask
  enable := true
  typeFe := 1
  typeFx := 2
  typeLe := 3
  typeGe := 4
  units := [⟨3, 2⟩, ⟨10, 3⟩]
  prios := [0, 1, 2]
  maskCeiling := 2
  endian := .little
  storageBase := 0x20000000
  cursorAddr := 0x20001000

/-- `CFG_SMALL(K)` of R8: the default build with another capacity. -/
def Config.small (k : Nat) : Config := { Config.default with k := k }

/-- One choice of the step to take next (R169, R14), as plain data. -/
inductive Input where
  /-- A context, the debugger or the Encoder's caller issues an operation, its operands at full width (R74
  lets a model use the inductive type in place of the record). -/
  | call (i : Instr)
  /-- A request record, as bytes (R74; the byte layout is the model's, log entry 14). -/
  | record (bytes : List Byte)
  /-- An event word standing for the Encoder operation that produces it, as bytes in the view's order (R66). -/
  | event (bytes : List Byte)
  /-- The running context goes on: its append's next micro-step, or work outside TFIFO when it has none. -/
  | micro
  /-- `push d` (R170). -/
  | push (d : Nat)
  /-- `pop d` (R171). -/
  | pop (d : Nat)
  /-- The debugger reads `width` bytes at the 32-bit byte address `addr` (R33, R158). -/
  | memRead (addr : Word) (width : Nat)
  /-- Reset (70_reset_and_hazards.md R190). -/
  | reset
  deriving DecidableEq, Repr, Inhabited

/-- FREE VALUE (log entry 7): the environment's choices, which R169 leaves free. It has no body, so no proof
can see one of them. -/
opaque Config.freeInput : Nat → Input

end Sys2Proof
end

