-- ==== Sys2Proof/WellFormed.lean ====
section
/-! DEFINITION. Which instructions an encoding can hold under a build: the field widths of 30_encoding.md R66
for the Encoder's operations, R74 and the model's record layout (log entry 14) for the requests. The meanings
do not depend on this check: an operand too wide for its field still runs when it is issued at full width. -/

namespace Sys2Proof

/-- A context of `CTX` that the record's context byte can name. -/
abbrev ctxWf (c : Config) (ctx : Nat) : Prop := ctx < c.prios.length ∧ ctx < 256

/-- A unit of `UNITS` that the record's unit byte can name. -/
abbrev unitWf (c : Config) (u : Nat) : Prop := u < c.units.length ∧ u < 256

/-- A verbosity the record's 32-bit two's complement field can hold (log entry 14). -/
abbrev verbosityWf (v : Int) : Prop := -2147483648 ≤ v ∧ v < 2147483648

/-- Every operand fits its field: an event word holds a module id of 6 bits, an identifier of 22 bits, an event
id of 6 bits and a payload of 16 bits (R66, R67); a request names a context and a unit that exist, and a slot
of the `K`-bit index space (R74). -/
def Instr.wf (c : Config) : Instr → Bool
  | .encFe m f => decide (m.toNat < 64 ∧ f.toNat < 4194304)
  | .encFx m f => decide (m.toNat < 64 ∧ f.toNat < 4194304)
  | .encLe m e p => decide (m.toNat < 64 ∧ e.toNat < 64 ∧ p.toNat < 65536)
  | .encGe m e p => decide (m.toNat < 64 ∧ e.toNat < 64 ∧ p.toNat < 65536)
  | .append ctx _ _ => decide (ctxWf c ctx)
  | .logFe ctx u v _ => decide (ctxWf c ctx ∧ unitWf c u ∧ verbosityWf v)
  | .logFx ctx u v _ => decide (ctxWf c ctx ∧ unitWf c u ∧ verbosityWf v)
  | .logLe ctx u v _ _ => decide (ctxWf c ctx ∧ unitWf c u ∧ verbosityWf v)
  | .logGe ctx u v _ _ => decide (ctxWf c ctx ∧ unitWf c u ∧ verbosityWf v)
  | .dbgRdSlot i => decide (i < c.n)
  | .dbgRdCursor => true
  | .reserved => true

end Sys2Proof
end

