-- ==== Sys2Proof/Decode.lean ====
section
/-! DEFINITION. The byte order of a word (20_memory.md R42), the decoder of the two formats of 30_encoding.md,
total on any bytes, and the encoder. The event word's layout is R66; of the request record the spec gives the
selector and the operands (R74) and the model fixes the bytes (log entry 14). -/

namespace Sys2Proof

/-- Byte `j` of a word in the debugger's view (R42): `w[8j+7:8j]`, or `w[31-8j:24-8j]`. -/
def wordByte (e : Endian) (w : Word) (j : Nat) : Byte :=
  match e with
  | .little => w.extractLsb' (8 * j) 8
  | .big => w.extractLsb' (24 - 8 * j) 8

/-- The four bytes of a word, lowest address first (R42). -/
def wordBytes (e : Endian) (w : Word) : List Byte :=
  [wordByte e w 0, wordByte e w 1, wordByte e w 2, wordByte e w 3]

/-- The word that four bytes hold, lowest address first: the inverse of `wordBytes`. -/
def wordOfBytes (e : Endian) (b0 b1 b2 b3 : Byte) : Word :=
  match e with
  | .little => b3 ++ b2 ++ b1 ++ b0
  | .big => b0 ++ b1 ++ b2 ++ b3

/-- The two formats of opcode_table.json. -/
inductive Format where
  /-- `EVW`, the 32-bit event word (R66). -/
  | eventWord
  /-- `REQ`, the request record (R74). -/
  | request
  deriving DecidableEq, Repr, Inhabited

/-- Why bytes name no operation. Both are safe: the model stops. -/
inductive DecodeError where
  /-- Fewer bytes than the format's fixed size (R67, R78). -/
  | tooShort
  /-- No `TYPE_x` equals the word's bits 31:28 (R70). -/
  | noCategory (code : BitVec 4)
  deriving DecidableEq, Repr, Inhabited

/-! ## Field extraction (R95) -/

def typeOf (w : Word) : BitVec 4 := w.extractLsb' 28 4
def moduleOf (w : Word) : BitVec 6 := w.extractLsb' 22 6
def eventOf (w : Word) : BitVec 6 := w.extractLsb' 16 6
def payloadOf (w : Word) : BitVec 16 := w.extractLsb' 0 16
def identOf (w : Word) : BitVec 22 := w.extractLsb' 0 22

/-! ## The decoder -/

/-- The Encoder operation an event word stands for: the category is the `x` with `TYPE_x = w[31:28]` (R70), the
operands are the word's fields (R95). -/
def decodeEvent (c : Config) (w : Word) : Except DecodeError Instr :=
  if typeOf w = c.typeFe then .ok (.encFe ((moduleOf w).setWidth 32) ((identOf w).setWidth 32))
  else if typeOf w = c.typeFx then .ok (.encFx ((moduleOf w).setWidth 32) ((identOf w).setWidth 32))
  else if typeOf w = c.typeLe then
    .ok (.encLe ((moduleOf w).setWidth 32) ((eventOf w).setWidth 32) ((payloadOf w).setWidth 32))
  else if typeOf w = c.typeGe then
    .ok (.encGe ((moduleOf w).setWidth 32) ((eventOf w).setWidth 32) ((payloadOf w).setWidth 32))
  else .error (.noCategory (typeOf w))

/-- The request a record's fields name: the selector is the low three bits of the first byte (R74); every
selector but `111` is a request and `111` is the reserved one (R75). A field a request has no use for is not
read. -/
def decodeFields (b0 ctx unit flags : Byte) (x y z : Word) : Instr :=
  match (b0.extractLsb' 0 3).toNat with
  | 0 => .append ctx.toNat (flags.getLsbD 0) x
  | 1 => .logFe ctx.toNat unit.toNat x.toInt y
  | 2 => .logFx ctx.toNat unit.toNat x.toInt y
  | 3 => .logLe ctx.toNat unit.toNat x.toInt y z
  | 4 => .logGe ctx.toNat unit.toNat x.toInt y z
  | 5 => .dbgRdSlot x.toNat
  | 6 => .dbgRdCursor
  | _ => .reserved

/-- A request record is 16 bytes (log entry 14): selector, context, unit, flags (bit 0 is `rec`), then three
operand words, least significant byte first. -/
def decodeRequest : List Byte → Except DecodeError (Instr × List Byte)
  | b0 :: b1 :: b2 :: b3 :: x0 :: x1 :: x2 :: x3 :: y0 :: y1 :: y2 :: y3 :: z0 :: z1 :: z2 :: z3 :: rest =>
    .ok (decodeFields b0 b1 b2 b3 (wordOfBytes .little x0 x1 x2 x3) (wordOfBytes .little y0 y1 y2 y3)
      (wordOfBytes .little z0 z1 z2 z3), rest)
  | _ => .error .tooShort

/-- An event word is four bytes in the view's order (R42, R67). -/
def decodeEventBytes (c : Config) : List Byte → Except DecodeError (Instr × List Byte)
  | b0 :: b1 :: b2 :: b3 :: rest =>
    (decodeEvent c (wordOfBytes c.endian b0 b1 b2 b3)).map fun i => (i, rest)
  | _ => .error .tooShort

/-- The decoder: the operation at the head of the bytes and the bytes after it, or the reason there is none. -/
def decode (c : Config) (f : Format) (bs : List Byte) : Except DecodeError (Instr × List Byte) :=
  match f with
  | .eventWord => decodeEventBytes c bs
  | .request => decodeRequest bs

/-! ## The encoder -/

/-- The layout of FunctionEnter and FunctionExit words (R66), field beside field. -/
def identLayout (ty : BitVec 4) (m f : Word) : Word := ty ++ m.extractLsb' 0 6 ++ f.extractLsb' 0 22

/-- The layout of LocalEvent and GlobalEvent words (R66), field beside field. -/
def eventLayout (ty : BitVec 4) (m e p : Word) : Word :=
  ty ++ m.extractLsb' 0 6 ++ e.extractLsb' 0 6 ++ p.extractLsb' 0 16

/-- The bytes of a request record (log entry 14). -/
def recordBytes (sel ctx unit : Nat) (record : Bool) (x y z : Word) : List Byte :=
  [BitVec.ofNat 8 sel, BitVec.ofNat 8 ctx, BitVec.ofNat 8 unit, if record then 1 else 0]
    ++ wordBytes .little x ++ wordBytes .little y ++ wordBytes .little z

/-- The format of an operation's row. -/
def Instr.format : Instr → Format
  | .encFe _ _ | .encFx _ _ | .encLe _ _ _ | .encGe _ _ _ => .eventWord
  | .append _ _ _ | .logFe _ _ _ _ | .logFx _ _ _ _ | .logLe _ _ _ _ _ | .logGe _ _ _ _ _ => .request
  | .dbgRdSlot _ | .dbgRdCursor | .reserved => .request

/-- The fixed size of a format in bytes (R67, R78; log entry 14). -/
def Format.size : Format → Nat
  | .eventWord => 4
  | .request => 16

/-- The bytes of an operation. -/
def encode (c : Config) : Instr → List Byte
  | .encFe m f => wordBytes c.endian (identLayout c.typeFe m f)
  | .encFx m f => wordBytes c.endian (identLayout c.typeFx m f)
  | .encLe m e p => wordBytes c.endian (eventLayout c.typeLe m e p)
  | .encGe m e p => wordBytes c.endian (eventLayout c.typeGe m e p)
  | .append ctx r w => recordBytes 0 ctx 0 r w 0 0
  | .logFe ctx u v f => recordBytes 1 ctx u false (BitVec.ofInt 32 v) f 0
  | .logFx ctx u v f => recordBytes 2 ctx u false (BitVec.ofInt 32 v) f 0
  | .logLe ctx u v e p => recordBytes 3 ctx u false (BitVec.ofInt 32 v) e p
  | .logGe ctx u v e p => recordBytes 4 ctx u false (BitVec.ofInt 32 v) e p
  | .dbgRdSlot i => recordBytes 5 0 0 false (BitVec.ofNat 32 i) 0 0
  | .dbgRdCursor => recordBytes 6 0 0 false 0 0 0
  | .reserved => recordBytes 7 0 0 false 0 0 0

/-! ## Words numbered as spec/opcode_table.json numbers them -/

/-- The format of a table row that has `nbits` bits: the event words have 32, the request selectors 3. -/
def tableFormat (nbits : Nat) : Format := if 32 ≤ nbits then .eventWord else .request

/-- The bytes of a table word, every bit from `nbits` on 0. An event word is one word, in the view's order; a
request record's bit 0 is bit 0 of its first byte. -/
def tableBytes (c : Config) (nbits w : Nat) : List Byte :=
  match tableFormat nbits with
  | .eventWord => wordBytes c.endian (BitVec.ofNat 32 w)
  | .request => (List.range 16).map fun j => BitVec.ofNat 8 (w % 2 ^ nbits / 2 ^ (8 * j))

/-- The instruction the decoder reads from a table word, under the default build, whose type codes are the
table's. -/
def decodeTableWord (nbits w : Nat) : Option Instr :=
  match decode Config.default (tableFormat nbits) (tableBytes Config.default nbits w) with
  | .ok (i, _) => some i
  | .error _ => none

end Sys2Proof
end

