-- ==== Sys2Proof/Machine/State.lean ====
section
/-! DEFINITION. The state of TFIFO and of the environment that runs it (10_state.md R20 to R34), the reasons a
step may stop, and the state after reset (R32, 70_reset_and_hazards.md R190). -/

namespace Sys2Proof.Machine

/-- The progress of a context's append (R29). -/
inductive Phase where
  /-- No append in flight. -/
  | idle
  /-- The critical section is entered, the cursor not yet read. -/
  | entered (w : Word)
  /-- The cursor was read as `p`, slot `p` not yet written. -/
  | read (w : Word) (p : Nat)
  /-- Slot `p` is written, the cursor not yet. -/
  | written (p : Nat)
  /-- The cursor is written, the critical section not yet left. -/
  | committed
  deriving DecidableEq, Repr, Inhabited

/-- A context that has started and not returned, with its phase and the mask level it saved (R29). A context
off the stack is `Idle` (60_exceptions.md R177), and `saved` has a meaning only inside a critical section, so
both stand here (log entry 10). -/
structure Frame where
  ctx : Nat
  phase : Phase
  saved : Nat
  deriving DecidableEq, Repr, Inhabited

/-- The bytes of the byte view of `storage` (20_memory.md R40): addresses strictly rising, no entry equal to
what an unlisted address reads as. -/
abbrev Memory := List Host.Cell

/-- TFIFO, the environment, and the model's own ports. -/
structure State where
  /-- The build (R7), which no step changes (log entry 1). -/
  cfg : Config
  /-- `storage`, as the bytes of its slots (R20, R40). -/
  mem : Memory
  /-- `cursor`, the index of the next slot to be written (R23). -/
  cursor : Nat
  /-- `stack` (R30) with each context's phase; the head is the running context, the last is `MAIN`. -/
  stack : List Frame
  /-- `mask_level` (R30). -/
  maskLevel : Nat
  /-- The choices already made for the steps to come, oldest first (the model's own, log entry 7). -/
  inputs : List Input
  /-- How many free choices have been taken (the model's own, log entry 7). -/
  tick : Nat
  /-- The words the Encoder's operations returned, newest first (the model's own, log entry 13). -/
  encOut : List Word
  /-- The words the debugger got back, newest first (44_debug_port.md R161, log entry 13). -/
  dbgOut : List Word
  deriving DecidableEq, Repr

/-- TFIFO raises no exception, fault or trap (60_exceptions.md R165), and nothing in the model stops with one:
the type has no constructor. -/
inductive Fault where
  deriving DecidableEq, Repr

/-- Why the model gives an input no step. Each is safe: the model stops. -/
inductive Refusal where
  /-- Raised by `exec` for an instruction without a meaning yet; no arm raises it now. -/
  | notModelled (mnemonic : String)
  /-- Raised by `RESERVED`: selector `111` has no meaning (30_encoding.md R75). -/
  | reservedSelector
  /-- Raised by a request that would append from a context other than `top(stack)`: only the top context runs
  (R169), so no run has such a step. -/
  | notRunning
  /-- Raised by a request that would append while its context's append is in flight: an append is issued only
  in phase `Idle` (42_ring_writer.md R111, R116, R127), so no run has such a step. -/
  | appendInFlight
  /-- Raised by a `LOG_*` request whose unit is not in `UNITS` (30_encoding.md R74): it has no threshold. -/
  | noSuchUnit
  /-- Raised by `DBG_RD_SLOT` with an index that is not below `N`: it is not an index of `K` bits (R156). -/
  | noSuchSlot
  /-- Raised by a debugger read of a disabled build (R164). -/
  | debugDisabled
  /-- Raised by a debugger access of another width, unaligned or outside both regions (R158). -/
  | debugAccess
  /-- Raised by bytes that name no operation (`decode`). -/
  | undecodable (e : DecodeError)
  deriving DecidableEq, Repr

/-- The state of a build after reset (R32, R190): every slot 0 (nothing listed), cursor 0, every phase `Idle`,
`stack = [MAIN]`, `mask_level = 0`; `saved` has no value in the spec and is 0 here (log entry 10). -/
def State.resetOf (c : Config) : State where
  cfg := c
  mem := []
  cursor := 0
  stack := [⟨mainCtx, .idle, 0⟩]
  maskLevel := 0
  inputs := []
  tick := 0
  encOut := []
  dbgOut := []

/-- The machine right after reset, in the default build. -/
def State.reset : State := State.resetOf Config.default

end Sys2Proof.Machine
end

