-- ==== Sys2Proof/Machine/Flags.lean ====
section
/-! DEFINITION. TFIFO has no flag, condition code or predicate register (10_state.md R35), so no instruction
computes one. What decides whether something happens are the conditions here: the verbosity gate
(43_log_requests.md R137) and the enabling of a preemption and of a return (60_exceptions.md R170, R171). -/

namespace Sys2Proof.Machine

/-- The verbosity gate (R137), a comparison of integers. -/
def allowed (v threshold : Int) : Bool := decide (0 < v) && decide (v ≤ threshold)

/-- `phase(c)` (R29): a context off the stack is `Idle` (R177). -/
def State.phaseOf (s : State) (c : Nat) : Phase :=
  match s.stack.find? (fun f => f.ctx == c) with
  | some f => f.phase
  | none => .idle

/-- `stack` as the spec lists it, `MAIN` first and the running context last (R169). -/
def State.contexts (s : State) : List Nat := (s.stack.map Frame.ctx).reverse

/-- `c = top(stack)` (R169). -/
def State.running (s : State) (c : Nat) : Bool :=
  match s.stack with
  | [] => false
  | f :: _ => f.ctx == c

/-- `push d` is enabled (R170): `d` is a context of `CTX` that is not on the stack, and its priority is above
the running context's and above the mask level. -/
def State.pushEnabled (s : State) (d : Nat) : Bool :=
  match s.stack with
  | [] => false
  | f :: _ =>
    decide (d < s.cfg.prios.length) && s.stack.all (fun g => g.ctx != d)
      && decide (s.cfg.prio f.ctx < s.cfg.prio d) && decide (s.maskLevel < s.cfg.prio d)

/-- `pop d` is enabled (R171): `d` is the running context, it is not `MAIN`, and it has no append in flight. -/
def State.popEnabled (s : State) (d : Nat) : Bool :=
  match s.stack with
  | [] => false
  | f :: _ => f.ctx == d && d != mainCtx && decide (f.phase = .idle)

end Sys2Proof.Machine
end

