-- ==== Sys2Proof/Machine/Operands.lean ====
section
/-! DEFINITION. The operand forms of the Encoder (30_encoding.md R69) and its four packing functions
(41_encoder.md R91 to R94). -/

namespace Sys2Proof.Machine

/-- A type code in its field, `TYPE_x << 28`. -/
def typeField (ty : BitVec 4) : Word := ty.setWidth 32 <<< 28

/-- The module id in its field, `module_id << 22`: shifted, not masked, so that bits 9:6 land in the type field
and bits 31:10 are lost (R69, 90_conflicts.md C1). -/
def moduleField (m : Word) : Word := m <<< 22

/-- The function identifier, truncated to 22 bits (R69). -/
def identField (f : Word) : Word := f &&& 0x003FFFFF#32

/-- The event id, truncated to 6 bits and shifted (R69). -/
def eventField (e : Word) : Word := (e &&& 0x3F#32) <<< 16

/-- The payload, truncated to 16 bits (R69). -/
def payloadField (p : Word) : Word := p &&& 0xFFFF#32

/-- The word of a FunctionEnter or FunctionExit event with the type code given (R91, R92). -/
def packIdent (ty : BitVec 4) (m f : Word) : Word := typeField ty ||| moduleField m ||| identField f

/-- The word of a LocalEvent or GlobalEvent with the type code given (R93, R94). -/
def packEvent (ty : BitVec 4) (m e p : Word) : Word :=
  typeField ty ||| moduleField m ||| eventField e ||| payloadField p

/-- `ENC_FE(module_id, fid)` (R91). -/
def wordFe (c : Config) (m f : Word) : Word := packIdent c.typeFe m f

/-- `ENC_FX(module_id, fid)` (R92). -/
def wordFx (c : Config) (m f : Word) : Word := packIdent c.typeFx m f

/-- `ENC_LE(module_id, eid, payload)` (R93). -/
def wordLe (c : Config) (m e p : Word) : Word := packEvent c.typeLe m e p

/-- `ENC_GE(module_id, eid, payload)` (R94). -/
def wordGe (c : Config) (m e p : Word) : Word := packEvent c.typeGe m e p

end Sys2Proof.Machine
end

