-- ==== Sys2Proof/Machine/Ops.lean ====
section
/-! DEFINITION. The named operations over the storage, the cursor, the running context and the environment: the
only code that reads or writes those fields of the state. -/

namespace Sys2Proof.Machine

/-! ## Memory: bytes of the view, one canonical form -/

/-- What an address that is not listed reads as: the reset contents of every slot (10_state.md R32). -/
def Memory.unlisted : Byte := 0

/-- The byte at an address. -/
def Memory.readByte : Memory → Nat → Byte
  | [], _ => Memory.unlisted
  | (k, v) :: t, a => if k = a then v else Memory.readByte t a

/-- A listed byte put at its place in the rising order. -/
def Memory.insert : Memory → Nat → Byte → Memory
  | [], a, v => [(a, v)]
  | (k, x) :: t, a, v => if a < k then (a, v) :: (k, x) :: t else (k, x) :: Memory.insert t a v

/-- The memory with nothing listed at an address. -/
def Memory.erase (m : Memory) (a : Nat) : Memory := m.filter fun c => c.1 != a

/-- A byte written: the value an unlisted address reads as is not listed. -/
def Memory.writeByte (m : Memory) (a : Nat) (v : Byte) : Memory :=
  if v = Memory.unlisted then m.erase a else (m.erase a).insert a v

/-- The canonical form: addresses strictly rising, no entry equal to what an unlisted address reads as. -/
abbrev Memory.wf (m : Memory) : Prop :=
  m.Pairwise (fun x y => x.1 < y.1) ∧ ∀ c ∈ m, c.2 ≠ Memory.unlisted

/-- The word at four consecutive addresses (20_memory.md R42). -/
def Memory.readWord (e : Endian) (m : Memory) (a : Nat) : Word :=
  wordOfBytes e (m.readByte a) (m.readByte (a + 1)) (m.readByte (a + 2)) (m.readByte (a + 3))

/-- `MemWrite(a, 4, w)` (R40, R42): one word, all of it at once (R46). -/
def Memory.writeWord (e : Endian) (m : Memory) (a : Nat) (w : Word) : Memory :=
  (((m.writeByte a (wordByte e w 0)).writeByte (a + 1) (wordByte e w 1)).writeByte (a + 2) (wordByte e w 2)).writeByte
    (a + 3) (wordByte e w 3)

/-! ## Storage and cursor -/

/-- `storage[i]` (00_scope.md R11). -/
def State.slot (s : State) (i : Nat) : Word := s.mem.readWord s.cfg.endian (s.cfg.slotAddr i)

/-- `storage[i] <- w` (R11). -/
def State.setSlot (s : State) (i : Nat) (w : Word) : State :=
  { s with mem := s.mem.writeWord s.cfg.endian (s.cfg.slotAddr i) w }

/-- `cursor <- (p + 1) & (N - 1)` (42_ring_writer.md R113). -/
def State.advanceFrom (s : State) (p : Nat) : State := { s with cursor := (p + 1) &&& (s.cfg.n - 1) }

/-- The cursor as the debugger sees it, `zext_32(cursor)` (R41). -/
def State.cursorWord (s : State) : Word := BitVec.ofNat 32 s.cursor

/-- The byte the debugger's view holds at a 32-bit byte address (R40 to R42, 10_state.md R33); no byte outside the two
regions (R48). -/
def State.viewByte (s : State) (a : Word) : Option Byte :=
  if s.cfg.storageBase ≤ a.toNat ∧ a.toNat < s.cfg.storageBase + 4 * s.cfg.n then some (s.mem.readByte a.toNat)
  else if s.cfg.cursorAddr ≤ a.toNat ∧ a.toNat < s.cfg.cursorAddr + 4 then
    some (wordByte s.cfg.endian s.cursorWord (a.toNat - s.cfg.cursorAddr))
  else none

/-! ## The running context -/

/-- `phase(c) <- ph`, for the running context `c` (10_state.md R29). -/
def State.setPhase (s : State) (ph : Phase) : State :=
  match s.stack with
  | [] => s
  | f :: r => { s with stack := { f with phase := ph } :: r }

/-- Raising the mask (42_ring_writer.md R116): the level in force is saved, and becomes at least the ceiling. -/
def State.raiseMask (s : State) : State :=
  match s.stack with
  | [] => s
  | f :: r =>
    { s with stack := { f with saved := s.maskLevel } :: r, maskLevel := max s.maskLevel s.cfg.maskCeiling }

/-- Restoring the mask level the running context saved (R117). -/
def State.restoreMask (s : State) : State :=
  match s.stack with
  | [] => s
  | f :: _ => { s with maskLevel := f.saved }

/-! ## Preemption, return, reset (no trap exists: 60_exceptions.md R175, R176) -/

/-- `push d` (R170): the only entry-like event. `d` becomes the running context, `Idle`; nothing else changes.
A push that is not enabled is held off and changes nothing (R172, log entry 8). -/
def State.push (s : State) (d : Nat) : State :=
  if s.pushEnabled d then { s with stack := ⟨d, .idle, 0⟩ :: s.stack } else s

/-- `pop d` (R171): the only return-like event. The context below goes on with its phase unchanged. A pop that is
not enabled changes nothing (log entry 8). -/
def State.pop (s : State) (d : Nat) : State :=
  if s.popEnabled d then { s with stack := s.stack.tail } else s

/-- Reset (70_reset_and_hazards.md R190): every piece of TFIFO's and the environment's state at its reset value, the
build kept; the words already handed out and the choices to come are outside TFIFO (log entry 21). -/
def State.restart (s : State) : State :=
  { State.resetOf s.cfg with inputs := s.inputs, tick := s.tick, encOut := s.encOut, dbgOut := s.dbgOut }

/-! ## Ports -/

/-- The Encoder returns a word to its caller (41_encoder.md R91, log entry 13). -/
def State.returnWord (s : State) (w : Word) : State := { s with encOut := w :: s.encOut }

/-- The debugger gets a word back (44_debug_port.md R161, log entry 13). -/
def State.answerDebugger (s : State) (w : Word) : State := { s with dbgOut := w :: s.dbgOut }

/-- The choice the next step takes: the oldest one made, or a free one (log entry 7). -/
def State.nextInput (s : State) : Input :=
  match s.inputs with
  | [] => Config.freeInput s.tick
  | i :: _ => i

/-- The state once that choice is taken up. -/
def State.consume (s : State) : State :=
  match s.inputs with
  | [] => { s with tick := s.tick + 1 }
  | _ :: r => { s with inputs := r }

end Sys2Proof.Machine
end

