-- ==== Sys2Proof/Machine/Ring.lean ====
section
/-! DEFINITION. The Ring Writer: the micro-steps of 42_ring_writer.md and the issue of an append. Which input takes
which micro-step is 60_exceptions.md R169. -/

namespace Sys2Proof.Machine

/-- The answer of an operation that may be refused. -/
abbrev Answer := Host.Outcome State Fault Refusal

/-- Micro-step CSE (R116): the critical section is entered with the word to append. -/
def microCse (w : Word) (s : State) : State := s.raiseMask.setPhase (.entered w)

/-- Micro-step R (R111): `p <- cursor`. -/
def microR (w : Word) (s : State) : State := s.setPhase (.read w s.cursor)

/-- Micro-step W (R112): `storage[p] <- w`. -/
def microW (w : Word) (p : Nat) (s : State) : State := (s.setSlot p w).setPhase (.written p)

/-- The phase C leaves (R113): under MASK the critical section is still to be left. -/
def phaseAfterC : Policy → Phase
  | .mask => .committed
  | .nomask => .idle

/-- Micro-step C (R113): `cursor <- (p + 1) & (N - 1)`, from the `p` the context read. -/
def microC (p : Nat) (s : State) : State :=
  (s.advanceFrom p).setPhase (phaseAfterC s.cfg.policy)

/-- Micro-step CSX (R117): the level saved is restored. -/
def microCsx (s : State) : State := s.restoreMask.setPhase .idle

/-- The running context goes on: the micro-step its phase enables. With no append in flight it works outside
TFIFO, which changes nothing here (log entry 8). CSE's and CSX's phases exist only under MASK (R29, R116, R117). -/
def microStep (s : State) : State :=
  match s.stack with
  | [] => s
  | f :: _ =>
    match f.phase, s.cfg.policy with
    | .idle, _ => s
    | .entered w, .mask => microR w s
    | .entered _, .nomask => s
    | .read w p, _ => microW w p s
    | .written p, _ => microC p s
    | .committed, .mask => microCsx s
    | .committed, .nomask => s

/-- The first micro-step of an append of `w`: CSE under MASK (R116), R under NOMASK (R111). -/
def firstMicro (w : Word) (s : State) : State :=
  match s.cfg.policy with
  | .mask => microCse w s
  | .nomask => microR w s

/-- An append of `w` is issued by context `c` (R111, R116): its first micro-step. It needs `c` to be the running context and
`Idle`; the micro-steps that follow are the context's own next steps (log entry 9). -/
def issueAppend (c : Nat) (w : Word) (s : State) : Answer :=
  match s.stack with
  | [] => .refused .notRunning
  | f :: _ =>
    if f.ctx ≠ c then .refused .notRunning
    else if f.phase ≠ .idle then .refused .appendInFlight
    else .next (firstMicro w s)

end Sys2Proof.Machine
end

