-- ==== Sys2Proof/Machine/Debug.lean ====
section
/-! DEFINITION. The debugger's reads (44_debug_port.md) and the reserved selector (30_encoding.md R75). A read changes
no state of TFIFO (20_memory.md R47); the word goes to the debugger. -/

namespace Sys2Proof.Machine

/-- `DBG_RD_SLOT i` (R156): the current value of slot `i`, refused in a disabled build (R164). -/
def execDbgRdSlot (i : Nat) (s : State) : Answer :=
  if s.cfg.enable then
    if i < s.cfg.n then .next (s.answerDebugger (s.slot i)) else .refused .noSuchSlot
  else .refused .debugDisabled

/-- `DBG_RD_CURSOR` (R157): the cursor, zero-extended, refused in a disabled build (R164). -/
def execDbgRdCursor (s : State) : Answer :=
  if s.cfg.enable then .next (s.answerDebugger s.cursorWord) else .refused .debugDisabled

/-- Selector `111` (R75): refused, it has no meaning and no step. -/
def execReserved (_s : State) : Answer := .refused .reservedSelector

/-- `MemRead(a, width)` by the debugger at a 32-bit byte address (R158, 10_state.md R33): the byte-addressed spelling of the
two reads; every other access is refused. -/
def debugMemRead (a : Word) (width : Nat) (s : State) : Answer :=
  if ¬ s.cfg.enable then .refused .debugDisabled
  else if width ≠ 4 then .refused .debugAccess
  else if s.cfg.storageBase ≤ a.toNat ∧ (a.toNat - s.cfg.storageBase) % 4 = 0 ∧
      (a.toNat - s.cfg.storageBase) / 4 < s.cfg.n then
    execDbgRdSlot ((a.toNat - s.cfg.storageBase) / 4) s
  else if a.toNat = s.cfg.cursorAddr then execDbgRdCursor s
  else .refused .debugAccess

end Sys2Proof.Machine
end

