-- ==== Sys2Proof/Machine/Encoder.lean ====
section
/-! DEFINITION. The meanings of ENC_FE, ENC_FX, ENC_LE and ENC_GE (41_encoder.md): each returns its word, reads and
writes no state of TFIFO, and takes no micro-step (R90). -/

namespace Sys2Proof.Machine

/-- `ENC_FE` (R91). -/
def execEncFe (m f : Word) (s : State) : Answer := .next (s.returnWord (wordFe s.cfg m f))

/-- `ENC_FX` (R92). -/
def execEncFx (m f : Word) (s : State) : Answer := .next (s.returnWord (wordFx s.cfg m f))

/-- `ENC_LE` (R93). -/
def execEncLe (m e p : Word) (s : State) : Answer := .next (s.returnWord (wordLe s.cfg m e p))

/-- `ENC_GE` (R94). -/
def execEncGe (m e p : Word) (s : State) : Answer := .next (s.returnWord (wordGe s.cfg m e p))

end Sys2Proof.Machine
end

