-- ==== Sys2Proof/Machine/Requests.lean ====
section
/-! DEFINITION. The meanings of APPEND and of the LOG requests (43_log_requests.md). A request that does nothing is
`skip`: the state is unchanged, and no operand after the ones that decide it is read (R143, R144). -/

namespace Sys2Proof.Machine

/-- `APPEND rec, w` (R136): with `ENABLE = 1` and `rec = 1` the append is issued, else `skip`. -/
def appendRequest (c : Nat) (record : Bool) (w : Word) (s : State) : Answer :=
  if s.cfg.enable && record then issueAppend c w s else .next s

/-- A `LOG_*` request of unit `u` (R139 to R142): with `ENABLE = 1` and the gate true, `APPEND 1` of the word the
Encoder makes from `MODULE_ID(u)`, else `skip`. -/
def logRequest (c u : Nat) (v : Int) (enc : Word → Word) (s : State) : Answer :=
  if s.cfg.enable then
    match s.cfg.units[u]? with
    | none => .refused .noSuchUnit
    | some un => if allowed v un.threshold then appendRequest c true (enc un.moduleId) s else .next s
  else .next s

/-- `APPEND` (R136). -/
def execAppend (c : Nat) (record : Bool) (w : Word) (s : State) : Answer := appendRequest c record w s

/-- `LOG_FE` (R139). -/
def execLogFe (c u : Nat) (v : Int) (f : Word) (s : State) : Answer :=
  logRequest c u v (fun m => wordFe s.cfg m f) s

/-- `LOG_FX` (R140). -/
def execLogFx (c u : Nat) (v : Int) (f : Word) (s : State) : Answer :=
  logRequest c u v (fun m => wordFx s.cfg m f) s

/-- `LOG_LE` (R141). -/
def execLogLe (c u : Nat) (v : Int) (e p : Word) (s : State) : Answer :=
  logRequest c u v (fun m => wordLe s.cfg m e p) s

/-- `LOG_GE` (R142). -/
def execLogGe (c u : Nat) (v : Int) (e p : Word) (s : State) : Answer :=
  logRequest c u v (fun m => wordGe s.cfg m e p) s

end Sys2Proof.Machine
end

