-- ==== Sys2Proof/Machine/Dispatch.lean ====
section
/-! DEFINITION. `exec`: one arm per constructor of `Instr`, each a call of that instruction's meaning. -/

namespace Sys2Proof.Machine

def exec (i : Instr) (s : State) : Host.Outcome State Fault Refusal :=
  match i with
  | .encFe m f => Sys2Proof.Machine.execEncFe m f s
  | .encFx m f => Sys2Proof.Machine.execEncFx m f s
  | .encLe m e p => Sys2Proof.Machine.execEncLe m e p s
  | .encGe m e p => Sys2Proof.Machine.execEncGe m e p s
  | .append c r w => Sys2Proof.Machine.execAppend c r w s
  | .logFe c u v f => Sys2Proof.Machine.execLogFe c u v f s
  | .logFx c u v f => Sys2Proof.Machine.execLogFx c u v f s
  | .logLe c u v e p => Sys2Proof.Machine.execLogLe c u v e p s
  | .logGe c u v e p => Sys2Proof.Machine.execLogGe c u v e p s
  | .dbgRdSlot n => Sys2Proof.Machine.execDbgRdSlot n s
  | .dbgRdCursor => Sys2Proof.Machine.execDbgRdCursor s
  | .reserved => Sys2Proof.Machine.execReserved s

end Sys2Proof.Machine
end

