-- ==== Sys2Proof/Machine/Agents.lean ====
section
/-! DEFINITION. What each choice of the environment does (60_exceptions.md R169): a request or operation runs through
`exec`, the running context's micro-step, `push`, `pop`, a debugger read, reset. -/

namespace Sys2Proof.Machine

/-- Bytes presented in a format: the operation decoded from them, or a refusal that says why there is none. DESIGN
CHOICE (log entry 25): R78 fixes the size of a record and of an event word and does not say what surplus bytes after
it do; the operation at the head runs and they are dropped. -/
def performBytes (f : Format) (bs : List Byte) (s : State) : Answer :=
  match decode s.cfg f bs with
  | .ok (i, _) => exec i s
  | .error e => .refused (.undecodable e)

/-- One choice performed. -/
def perform (x : Input) (s : State) : Answer :=
  match x with
  | .call i => exec i s
  | .record bs => performBytes .request bs s
  | .event bs => performBytes .eventWord bs s
  | .micro => .next (microStep s)
  | .push d => .next (s.push d)
  | .pop d => .next (s.pop d)
  | .memRead a width => debugMemRead a width s
  | .reset => .next s.restart

/-- The choice that presents a word of spec/opcode_table.json. -/
def tableInput (c : Config) (nbits w : Nat) : Input :=
  match tableFormat nbits with
  | .eventWord => .event (tableBytes c nbits w)
  | .request => .record (tableBytes c nbits w)

end Sys2Proof.Machine
end

