-- ==== Sys2Proof/Machine/Step.lean ====
section
/-! DEFINITION. One step: the next choice is taken up and performed (00_scope.md R14, 60_exceptions.md R169). TFIFO
fetches nothing (10_state.md R28); what stands in the place of a fetch is the list of choices to come. -/

namespace Sys2Proof.Machine

/-- One step of the machine. -/
def step (s : State) : Host.Outcome State Fault Refusal := perform s.nextInput s.consume

/-- The state with a word of the opcode table presented as the very next choice (log entry 22). -/
def State.withFetchWord (s : State) (nbits w : Nat) : State :=
  { s with inputs := tableInput s.cfg nbits w :: s.inputs }

end Sys2Proof.Machine
end

