-- ==== Sys2Proof/Safety.lean ====
section
/-! DEFINITION. The vocabulary of the claims: the invariant of every state a run reaches, what one whole append leaves
(42_ring_writer.md R115, R119), the append a request asks for, the shape the mask guarantee keeps (60_exceptions.md
R183), the round-trip law (41_encoder.md R96), schedules of choices, and fair runs (60_exceptions.md R184). -/

namespace Sys2Proof.Machine

/-! ## The round-trip law -/

/-- The round-trip law of R96 (41_encoder.md) for a build: the fields read from a word by R95 are the operands the Encoder made it from,
in range; out of range they are truncated, and the type may change. -/
def RoundTrip (c : Config) : Prop :=
  (∀ m e p : Word, m.toNat ≤ 63 → e.toNat ≤ 63 → p.toNat ≤ 65535 →
    (typeOf (wordLe c m e p) = c.typeLe ∧ (moduleOf (wordLe c m e p)).toNat = m.toNat ∧
      (eventOf (wordLe c m e p)).toNat = e.toNat ∧ (payloadOf (wordLe c m e p)).toNat = p.toNat) ∧
    (typeOf (wordGe c m e p) = c.typeGe ∧ (moduleOf (wordGe c m e p)).toNat = m.toNat ∧
      (eventOf (wordGe c m e p)).toNat = e.toNat ∧ (payloadOf (wordGe c m e p)).toNat = p.toNat)) ∧
  (∀ m f : Word, m.toNat ≤ 63 →
    (typeOf (wordFe c m f) = c.typeFe ∧ (moduleOf (wordFe c m f)).toNat = m.toNat ∧
      (identOf (wordFe c m f)).toNat = f.toNat % 4194304) ∧
    (typeOf (wordFx c m f) = c.typeFx ∧ (moduleOf (wordFx c m f)).toNat = m.toNat ∧
      (identOf (wordFx c m f)).toNat = f.toNat % 4194304)) ∧
  (∀ m e p f : Word,
    (eventOf (wordLe c m e p)).toNat = e.toNat % 64 ∧ (payloadOf (wordLe c m e p)).toNat = p.toNat % 65536 ∧
    (eventOf (wordGe c m e p)).toNat = e.toNat % 64 ∧ (payloadOf (wordGe c m e p)).toNat = p.toNat % 65536 ∧
    (moduleOf (wordLe c m e p)).toNat = m.toNat % 64 ∧ (moduleOf (wordGe c m e p)).toNat = m.toNat % 64 ∧
    (moduleOf (wordFe c m f)).toNat = m.toNat % 64 ∧ (moduleOf (wordFx c m f)).toNat = m.toNat % 64)

/-! ## The invariant -/

/-- The phases a policy has (10_state.md R29), with the index read in bounds (42_ring_writer.md R121). -/
def Phase.legal (c : Config) : Phase → Bool
  | .idle => true
  | .entered _ => decide (c.policy = .mask)
  | .read _ p => decide (p < c.n)
  | .written p => decide (p < c.n)
  | .committed => decide (c.policy = .mask)

/-- Under MASK the mask level is the one the appends in flight, from the top of the stack down, raised (R116), each
over the level it saved; below them it is 0. -/
def maskChain (ceiling : Nat) : Nat → List Frame → Bool
  | level, [] => level == 0
  | level, f :: r =>
    if f.phase = .idle then maskChain ceiling level r
    else level == max f.saved ceiling && maskChain ceiling f.saved r

/-- The stack holds contexts of `CTX` in strictly falling priority from its top, `MAIN` at the bottom, each in a phase
its policy has (60_exceptions.md R169, R177). -/
abbrev State.StackInv (s : State) : Prop :=
  s.stack.Pairwise (fun f g => s.cfg.prio g.ctx < s.cfg.prio f.ctx) ∧
  (∀ f ∈ s.stack, f.ctx < s.cfg.prios.length ∧ f.phase.legal s.cfg = true) ∧
  s.stack.getLast?.map Frame.ctx = some mainCtx

/-- The mask level is the one the critical sections in force raised; under NOMASK it stays 0 (R116, R117, R119). -/
abbrev State.MaskInv (s : State) : Prop :=
  match s.cfg.policy with
  | .mask => maskChain s.cfg.maskCeiling s.maskLevel s.stack = true
  | .nomask => s.maskLevel = 0

/-- The memory is canonical and lists bytes of the storage region only (20_memory.md R40), and the cursor is a value of
`K` bits (10_state.md R23). -/
abbrev State.StorageInv (s : State) : Prop :=
  s.mem.wf ∧
  (∀ c ∈ s.mem, s.cfg.storageBase ≤ c.1 ∧ c.1 < s.cfg.storageBase + 4 * s.cfg.n) ∧
  s.cursor < s.cfg.n

/-- A disabled build's state is the reset state (43_log_requests.md R143), but for the contexts on the stack. -/
abbrev State.DisabledInv (s : State) : Prop :=
  s.cfg.enable = false →
    s.mem = [] ∧ s.cursor = 0 ∧ s.maskLevel = 0 ∧ ∀ f ∈ s.stack, f.phase = .idle

/-- What holds in every state a run of a legal build reaches. -/
abbrev State.Inv (s : State) : Prop :=
  s.cfg.Wf ∧ s.StackInv ∧ s.MaskInv ∧ s.StorageInv ∧ s.DisabledInv

/-- The reset values of R32 (10_state.md): every slot 0, the cursor 0, every phase `Idle`, `stack = [MAIN]`, `mask_level` 0. -/
abbrev State.AtReset (s : State) : Prop :=
  (∀ i, i < s.cfg.n → s.slot i = 0) ∧ s.cursor = 0 ∧ (∀ c, s.phaseOf c = .idle) ∧ s.contexts = [mainCtx] ∧ s.maskLevel = 0

/-! ## One append -/

/-- Context `c` may issue an append: it is the running context and `Idle` (42_ring_writer.md R111, R116). -/
abbrev State.ready (s : State) (c : Nat) : Prop := s.running c = true ∧ s.phaseOf c = .idle

/-- The running context takes `k` steps in a row. -/
def microSteps : Nat → State → State
  | 0, s => s
  | k + 1, s => microSteps k (microStep s)

/-- The contexts below the running one, the build and the ports are the same in both states. -/
abbrev SameOutside (s t : State) : Prop :=
  t.cfg = s.cfg ∧ t.contexts = s.contexts ∧ t.stack.tail = s.stack.tail ∧
  t.inputs = s.inputs ∧ t.tick = s.tick ∧ t.encOut = s.encOut ∧ t.dbgOut = s.dbgOut

/-- `t` is `s` once context `c` has issued an append of `w`: after CSE under MASK (R116), after R under NOMASK (R111). -/
abbrev Issued (s t : State) (c : Nat) (w : Word) : Prop :=
  SameOutside s t ∧ t.cursor = s.cursor ∧ (∀ a, t.mem.readByte a = s.mem.readByte a) ∧
  match s.cfg.policy with
  | .mask => t.phaseOf c = .entered w ∧ t.maskLevel = max s.maskLevel s.cfg.maskCeiling ∧
      t.stack.head?.map Frame.saved = some s.maskLevel
  | .nomask => t.phaseOf c = .read w s.cursor ∧ t.maskLevel = s.maskLevel ∧
      t.stack.head?.map Frame.saved = s.stack.head?.map Frame.saved

/-- `u` is `s` after one whole append of `w` by context `c` (the pseudocode of R115 and R119, taken as a whole): slot
`cursor` holds `w`, every other byte is unchanged, the cursor is one further, the mask level is as before, and the
context is `Idle` again. -/
abbrev Appended (s u : State) (c : Nat) (w : Word) : Prop :=
  SameOutside s u ∧ u.slot s.cursor = w ∧ u.cursor = (s.cursor + 1) % s.cfg.n ∧
  (∀ a, (a < s.cfg.slotAddr s.cursor ∨ s.cfg.slotAddr s.cursor + 4 ≤ a) → u.mem.readByte a = s.mem.readByte a) ∧
  u.maskLevel = s.maskLevel ∧ u.phaseOf c = .idle

/-- The append that an operation asks for, by which context and of which word: none where it is `skip` or asks for none
(43_log_requests.md R136, R139 to R142). -/
def appendAsked (cfg : Config) (i : Instr) : Option (Nat × Word) :=
  let logged (c u : Nat) (v : Int) (enc : Word → Word) : Option (Nat × Word) :=
    match cfg.units[u]? with
    | none => none
    | some un => if cfg.enable = true ∧ 0 < v ∧ v ≤ un.threshold then some (c, enc un.moduleId) else none
  match i with
  | .append c r w => if cfg.enable = true ∧ r = true then some (c, w) else none
  | .logFe c u v f => logged c u v fun m => wordFe cfg m f
  | .logFx c u v f => logged c u v fun m => wordFx cfg m f
  | .logLe c u v e p => logged c u v fun m => wordLe cfg m e p
  | .logGe c u v e p => logged c u v fun m => wordGe cfg m e p
  | .encFe _ _ | .encFx _ _ | .encLe _ _ _ | .encGe _ _ _ | .dbgRdSlot _ | .dbgRdCursor | .reserved => none

/-- The operation a choice presents, if it presents one. -/
def presented (cfg : Config) : Input → Option Instr
  | .call i => some i
  | .record bs => match decode cfg .request bs with | .ok (i, _) => some i | .error _ => none
  | .event bs => match decode cfg .eventWord bs with | .ok (i, _) => some i | .error _ => none
  | .micro | .push _ | .pop _ | .memRead _ _ | .reset => none

/-- The operation is a request of a context (30_encoding.md R74): APPEND or a LOG request. -/
def isRequest : Instr → Bool
  | .append _ _ _ | .logFe _ _ _ _ | .logFx _ _ _ _ | .logLe _ _ _ _ _ | .logGe _ _ _ _ _ => true
  | .encFe _ _ | .encFx _ _ | .encLe _ _ _ | .encGe _ _ _ | .dbgRdSlot _ | .dbgRdCursor | .reserved => false

/-! ## The mask guarantee (R183) -/

/-- What an append in flight has read is still the cursor (R183: the word goes to the slot R read, and the cursor advances
by exactly one). -/
def Phase.current (cursor : Nat) : Phase → Bool
  | .read _ p => p == cursor
  | .written p => p == cursor
  | .idle | .entered _ | .committed => true

/-- At most one append is in flight; what it has read is the cursor; and every context above it lies above the ceiling. -/
def soleFlight (cfg : Config) (cursor : Nat) : List Frame → Bool
  | [] => true
  | f :: r =>
    if f.phase = .idle then
      soleFlight cfg cursor r && (r.all (fun g => g.phase = .idle) || decide (cfg.maskCeiling < cfg.prio f.ctx))
    else f.phase.current cursor && r.all (fun g => g.phase = .idle)

/-! ## Progress and schedules -/

/-- How many micro-steps an append in this phase has still to take (20_memory.md R56). -/
def Phase.toGo (p : Policy) : Phase → Nat
  | .idle => 0
  | .entered _ => 4
  | .read _ _ => match p with | .mask => 3 | .nomask => 2
  | .written _ => match p with | .mask => 2 | .nomask => 1
  | .committed => 1

/-- How many micro-steps an append takes after the one that issues it (20_memory.md R56: five under MASK and three
under NOMASK in all). -/
def restSteps : Policy → Nat
  | .mask => 4
  | .nomask => 2

/-- The choices that make one append run from issue to end with nothing in between. -/
def appendInputs (p : Policy) (c : Nat) (w : Word) : List Input :=
  .call (.append c true w) :: List.replicate (restSteps p) .micro

/-- The choices of a sequential run: the appends of one context, one after the other (00_scope.md R17). -/
def sequentialInputs (p : Policy) (c : Nat) (ws : List Word) : List Input :=
  (ws.map (appendInputs p c)).flatten

/-- The choices by which context `d` preempts, makes whole appends of `ys` under NOMASK, and returns (42_ring_writer.md
R120; 60_exceptions.md R176: any number of requests before it returns). -/
def visit (d : Nat) (ys : List Word) : List Input := .push d :: sequentialInputs .nomask d ys ++ [.pop d]

/-- The choices of several such visits, one after the other, each by its own context. -/
def visits (vs : List (Nat × List Word)) : List Input := (vs.map fun v => visit v.1 v.2).flatten

/-- The words that visits append, in order. -/
def visitWords (vs : List (Nat × List Word)) : List Word := (vs.map Prod.snd).flatten

/-- Every visit is by a context that may preempt `c` in `s` as far as the stack and priorities go (60_exceptions.md R170). -/
abbrev MayPreempt (s : State) (c : Nat) (vs : List (Nat × List Word)) : Prop :=
  ∀ v ∈ vs, v.1 < s.cfg.prios.length ∧ v.1 ∉ s.contexts ∧ s.cfg.prio c < s.cfg.prio v.1

/-- The machine run over all the choices it holds. -/
def runInputs (s : State) : Host.Outcome State Fault Refusal := Sys2Proof.core.run s.inputs.length s

/-! ## Runs without end, and fairness (60_exceptions.md R184) -/

/-- The state with a choice of the environment's presented to its next step. -/
def State.present (s : State) (x : Input) : State := { s with inputs := [x] }

/-- `r 0, …, r n` is a run in which the environment makes the choices `σ` (60_exceptions.md R169). -/
abbrev RunTo (σ : Nat → Input) (r : Nat → State) (n : Nat) : Prop :=
  ∀ k, k < n → step ((r k).present (σ k)) = .next (r (k + 1))

/-- `r` is a run without end in which the environment makes the choices `σ`. -/
abbrev Run (σ : Nat → Input) (r : Nat → State) : Prop := ∀ n, RunTo σ r n

/-- R184's first assumption: every pushed context eventually returns (or a reset takes it off the stack). -/
abbrev HandlersReturn (r : Nat → State) : Prop :=
  ∀ n d, d ≠ mainCtx → d ∈ (r n).contexts → ∃ m, n ≤ m ∧ d ∉ (r m).contexts

/-- R184's second assumption: a context that is on top with an append in flight eventually takes its next micro-step, unless
a reset comes first. A context preempted in between takes it once it is on top again: read otherwise, preemptions without
end, each of which returns, could hold its append off for ever, and R184 says that every append completes (log entry 18). -/
abbrev TopGoesOn (σ : Nat → Input) (r : Nat → State) : Prop :=
  ∀ n c, (r n).running c = true → (r n).phaseOf c ≠ .idle →
    ∃ m, n ≤ m ∧ (σ m = .reset ∨ (σ m = .micro ∧ (r m).running c = true))

/-- A fair run (R184). -/
abbrev Fair (σ : Nat → Input) (r : Nat → State) : Prop := HandlersReturn r ∧ TopGoesOn σ r

end Sys2Proof.Machine
end

