-- ==== Sys2Proof/Certificates/Slice0/Obligations.lean ====
section
/-! DEFINITION. The statements for the provers. Each docstring names the rules of spec/ the statement formalises; log entry n
is notes/assumptions/n.md. Throughout, `inputs` presents the choices R169 leaves free (log entry 7), `micro` among them is the running
context going on, and the ports `encOut` and `dbgOut` hold what an operation returned (log entry 13). -/

open Sys2Proof Sys2Proof.Machine

/-! ## Reset, steps, encodings -/

/-- R32 (10_state.md) and R190 (70_reset_and_hazards.md): the reset values, for every build and after every reset, whatever was
in flight; the build is kept. `saved(c)` has no value in the spec after reset. -/
def Obligations.ResetPutsEveryPieceAtItsResetValue : Prop :=
  (∀ c : Config, (State.resetOf c).AtReset ∧ (State.resetOf c).cfg = c) ∧
  ∀ (s : State) (rest : List Input), s.inputs = .reset :: rest →
    ∃ t, step s = .next t ∧ t.AtReset ∧ t.cfg = s.cfg

/-- R169 (60_exceptions.md), R74 (30_encoding.md): a step takes the next choice up and performs it; an operation presented at
full width, as a record or as an event word that decodes to it, is run by `exec`. The list of choices, the free choice and the
table's words are the model's, and so is that surplus bytes are dropped (log entries 7, 14, 15, 22, 25). -/
def Obligations.StepRunsThePresentedInstruction : Prop :=
  (∀ (s : State) (i : Instr) (rest : List Input), s.inputs = .call i :: rest →
    step s = exec i { s with inputs := rest }) ∧
  (∀ (s : State) (bs tl : List Byte) (i : Instr) (rest : List Input), s.inputs = .record bs :: rest →
    decode s.cfg .request bs = .ok (i, tl) → step s = exec i { s with inputs := rest }) ∧
  (∀ (s : State) (bs tl : List Byte) (i : Instr) (rest : List Input), s.inputs = .event bs :: rest →
    decode s.cfg .eventWord bs = .ok (i, tl) → step s = exec i { s with inputs := rest }) ∧
  (∀ (s : State) (nbits w : Nat) (i : Instr) (tl : List Byte),
    decode s.cfg (tableFormat nbits) (tableBytes s.cfg nbits w) = .ok (i, tl) →
    step (s.withFetchWord nbits w) = exec i s) ∧
  (∀ s : State, s.inputs = [] → step s = perform (Config.freeInput s.tick) { s with tick := s.tick + 1 })

/-- The words of 41_encoder.md's and 95_test_vectors.md's examples, and the selectors of R74 (30_encoding.md), decode to the
operations they stand for, under the default build (the record's bytes are log entry 14's). -/
def Obligations.ExampleWordsDecode : Prop :=
  decodeTableWord 32 0x10F45678 = some (.encFe 3 0x345678) ∧
  decodeTableWord 32 0x20F45678 = some (.encFx 3 0x345678) ∧
  decodeTableWord 32 0x30C5ABCD = some (.encLe 3 5 0xABCD) ∧
  decodeTableWord 32 0x42A10102 = some (.encGe 10 33 0x0102) ∧
  decodeTableWord 8 0 = some (.append 0 false 0) ∧
  decodeTableWord 8 1 = some (.logFe 0 0 0 0) ∧
  decodeTableWord 8 2 = some (.logFx 0 0 0 0) ∧
  decodeTableWord 8 3 = some (.logLe 0 0 0 0 0) ∧
  decodeTableWord 8 4 = some (.logGe 0 0 0 0 0) ∧
  decodeTableWord 8 5 = some (.dbgRdSlot 0) ∧
  decodeTableWord 8 6 = some .dbgRdCursor ∧
  decodeTableWord 8 7 = some .reserved ∧
  decodeTableWord 32 0x50000000 = none

/-- Decode and encode agree (R66, R67, R74; the record's bytes are log entry 14's): for every legal build and every well-formed
operation, whatever bytes follow. -/
def Obligations.DecodeOfEncodeIsTheInstruction : Prop :=
  ∀ (c : Config) (i : Instr) (rest : List Byte), c.Wf → i.wf c = true →
    decode c i.format (encode c i ++ rest) = .ok (i, rest)

/-- An event word with a category stands for a well-formed Encoder operation, that operation's bytes are the word's, and running it
returns the word: no bit of the word is dropped. The layout and the category are the spec's (30_encoding.md section 1 and 2); that a word
presented stands for an operation `exec` runs is log entry 15 (DEDUCED; TFIFO itself decodes no word), and that it runs in a disabled build
is log entry 19 (DEDUCED, unsafe there). -/
def Obligations.EventWordIsReturnedByItsOperation : Prop :=
  ∀ (s : State) (w : Word) (i : Instr), decodeEvent s.cfg w = .ok i →
    i.wf s.cfg = true ∧ encode s.cfg i = wordBytes s.cfg.endian w ∧
      exec i s = .next { s with encOut := w :: s.encOut }

/-- R75 (30_encoding.md): selector `111` is refused and it alone is reserved: every record of at least the fixed size decodes (R78; that
surplus bytes are dropped is log entry 25, the record's bytes are log entry 14), to the reserved operation exactly when its first byte's low
three bits are 111, and that operation has no step. -/
def Obligations.SelectorSevenAloneIsReservedAndRefused : Prop :=
  (∀ s : State, exec .reserved s = .refused .reservedSelector) ∧
  (∀ (c : Config) (b : Byte) (bs : List Byte), 15 ≤ bs.length →
    ∃ i, decode c .request (b :: bs) = .ok (i, bs.drop 15) ∧ (i = .reserved ↔ b.extractLsb' 0 3 = 7#3)) ∧
  (∀ (s : State) (b : Byte) (bs : List Byte) (rest : List Input), 15 ≤ bs.length → b.extractLsb' 0 3 = 7#3 →
    s.inputs = .record (b :: bs) :: rest → step s = .refused .reservedSelector)

/-! ## The Encoder -/

/-- The formula and the fields of R91 and R92 (41_encoder.md): for every operand, ENC_FE and ENC_FX return the word of the formula, and its
fields are the type code with the module id's bits 9:6 bled in, the module id's bits 5:0, and the identifier's bits 21:0; nothing else changes
(R90). That the Encoder answers in a disabled build too is log entry 19 (DEDUCED, unsafe there). -/
def Obligations.EncIdentifierOperationsReturnTheirWord : Prop :=
  (∀ (s : State) (m f : Word), ∃ w : Word,
    exec (.encFe m f) s = .next { s with encOut := w :: s.encOut } ∧
    w = (s.cfg.typeFe.setWidth 32 <<< 28) ||| (m <<< 22) ||| (f &&& 0x003FFFFF#32) ∧
    typeOf w = s.cfg.typeFe ||| m.extractLsb' 6 4 ∧ moduleOf w = m.extractLsb' 0 6 ∧ identOf w = f.extractLsb' 0 22) ∧
  (∀ (s : State) (m f : Word), ∃ w : Word,
    exec (.encFx m f) s = .next { s with encOut := w :: s.encOut } ∧
    w = (s.cfg.typeFx.setWidth 32 <<< 28) ||| (m <<< 22) ||| (f &&& 0x003FFFFF#32) ∧
    typeOf w = s.cfg.typeFx ||| m.extractLsb' 6 4 ∧ moduleOf w = m.extractLsb' 0 6 ∧ identOf w = f.extractLsb' 0 22)

/-- The formula and the fields of R93 and R94 (41_encoder.md): for every operand, ENC_LE and ENC_GE return the word of the formula, and its
fields are the type code with the module id's bits 9:6 bled in, the module id's bits 5:0, the event id mod 64 and the payload mod 65536; nothing
else changes (R90). That the Encoder answers in a disabled build too is log entry 19 (DEDUCED, unsafe there). -/
def Obligations.EncEventOperationsReturnTheirWord : Prop :=
  (∀ (s : State) (m e p : Word), ∃ w : Word,
    exec (.encLe m e p) s = .next { s with encOut := w :: s.encOut } ∧
    w = (s.cfg.typeLe.setWidth 32 <<< 28) ||| (m <<< 22) ||| ((e &&& 0x3F#32) <<< 16) ||| (p &&& 0xFFFF#32) ∧
    typeOf w = s.cfg.typeLe ||| m.extractLsb' 6 4 ∧ moduleOf w = m.extractLsb' 0 6 ∧
    (eventOf w).toNat = e.toNat % 64 ∧ (payloadOf w).toNat = p.toNat % 65536) ∧
  (∀ (s : State) (m e p : Word), ∃ w : Word,
    exec (.encGe m e p) s = .next { s with encOut := w :: s.encOut } ∧
    w = (s.cfg.typeGe.setWidth 32 <<< 28) ||| (m <<< 22) ||| ((e &&& 0x3F#32) <<< 16) ||| (p &&& 0xFFFF#32) ∧
    typeOf w = s.cfg.typeGe ||| m.extractLsb' 6 4 ∧ moduleOf w = m.extractLsb' 0 6 ∧
    (eventOf w).toNat = e.toNat % 64 ∧ (payloadOf w).toNat = p.toNat % 65536)

/-- R96 (41_encoder.md): the round-trip law, in range and out of range, in every build (`RoundTrip` spells it out). -/
def Obligations.FieldsOfAnEncodedEventAreItsOperands : Prop := ∀ c : Config, RoundTrip c

/-- R73 (30_encoding.md), its first half: with no type code 0 the Encoder never produces the word 0, the reset contents of a slot. -/
def Obligations.EncoderNeverProducesZero : Prop :=
  ∀ (c : Config) (m e p f : Word), c.typeFe ≠ 0 → c.typeFx ≠ 0 → c.typeLe ≠ 0 → c.typeGe ≠ 0 →
    wordFe c m f ≠ 0 ∧ wordFx c m f ≠ 0 ∧ wordLe c m e p ≠ 0 ∧ wordGe c m e p ≠ 0

/-! ## Requests -/

/-- R136 (43_log_requests.md) with R115 and R119 (42_ring_writer.md): an enabled APPEND of the running, `Idle` context issues, and the
micro-steps that follow make the whole append: slot `cursor` holds the word, the cursor is one further modulo N, the mask level
is as before, and every other byte of memory is unchanged. Issuing as the first micro-step is log entry 9. -/
def Obligations.AppendStoresTheWordAndAdvancesTheCursor : Prop :=
  ∀ (s : State) (c : Nat) (w : Word), s.cfg.enable = true → s.ready c →
    ∃ t, exec (.append c true w) s = .next t ∧ Issued s t c w ∧ Appended s (microSteps (restSteps s.cfg.policy) t) c w

/-- R139 to R142 (43_log_requests.md): an enabled LOG request whose gate is true (R137: 0 < v and v ≤ THRESHOLD(u)), from the running,
`Idle` context, appends the Encoder's word of its unit's module id. -/
def Obligations.LogRequestsAppendTheirWord : Prop :=
  ∀ (s : State) (c u : Nat) (un : UnitCfg) (v : Int), s.cfg.enable = true → s.ready c → s.cfg.units[u]? = some un →
    0 < v → v ≤ un.threshold →
    (∀ f, ∃ t, exec (.logFe c u v f) s = .next t ∧ Issued s t c (wordFe s.cfg un.moduleId f) ∧
      Appended s (microSteps (restSteps s.cfg.policy) t) c (wordFe s.cfg un.moduleId f)) ∧
    (∀ f, ∃ t, exec (.logFx c u v f) s = .next t ∧ Issued s t c (wordFx s.cfg un.moduleId f) ∧
      Appended s (microSteps (restSteps s.cfg.policy) t) c (wordFx s.cfg un.moduleId f)) ∧
    (∀ e p, ∃ t, exec (.logLe c u v e p) s = .next t ∧ Issued s t c (wordLe s.cfg un.moduleId e p) ∧
      Appended s (microSteps (restSteps s.cfg.policy) t) c (wordLe s.cfg un.moduleId e p)) ∧
    (∀ e p, ∃ t, exec (.logGe c u v e p) s = .next t ∧ Issued s t c (wordGe s.cfg un.moduleId e p) ∧
      Appended s (microSteps (restSteps s.cfg.policy) t) c (wordGe s.cfg un.moduleId e p))

/-- R136, R139 to R142, R144 (43_log_requests.md): APPEND with `rec = 0`, and a LOG request whose gate is false, are `skip`: the state
is unchanged whatever the operands that are not read. That `skip` needs nothing of the issuing context is log entry 16. -/
def Obligations.SkippedRequestsChangeNothing : Prop :=
  (∀ (s : State) (c : Nat) (w : Word), exec (.append c false w) s = .next s) ∧
  (∀ (s : State) (c u : Nat) (un : UnitCfg) (v : Int) (a b : Word), s.cfg.units[u]? = some un →
    ¬(0 < v ∧ v ≤ un.threshold) →
    exec (.logFe c u v a) s = .next s ∧ exec (.logFx c u v a) s = .next s ∧
    exec (.logLe c u v a b) s = .next s ∧ exec (.logGe c u v a b) s = .next s)

/-- R143 (43_log_requests.md): with ENABLE = 0 every request is `skip`, storage, cursor and mask level keep their reset values in every
state a run reaches (they are part of the invariant every step keeps), and the debugger's reads are refused. -/
def Obligations.DisabledBuildSkipsEveryRequest : Prop :=
  (∀ (s : State) (c u : Nat) (r : Bool) (v : Int) (a b : Word), s.cfg.enable = false →
    exec (.append c r a) s = .next s ∧ exec (.logFe c u v a) s = .next s ∧ exec (.logFx c u v a) s = .next s ∧
    exec (.logLe c u v a b) s = .next s ∧ exec (.logGe c u v a b) s = .next s) ∧
  (∀ s t : State, s.Inv → s.cfg.enable = false → step s = .next t →
    (∀ i, t.slot i = 0) ∧ t.cursor = 0 ∧ t.maskLevel = 0) ∧
  (∀ (s : State) (i : Nat), s.cfg.enable = false →
    exec (.dbgRdSlot i) s = .refused .debugDisabled ∧ exec .dbgRdCursor s = .refused .debugDisabled)

/-- The frame of the five requests: whatever a request that goes on did, all of memory, the cursor, the build, the contexts and their phases
below the top, and both ports are as before; under NOMASK the mask level too; and a request that asks for no append changed nothing. That
memory and cursor are as before rests on log entry 9 (DEDUCED): `exec` takes the append's first micro-step, CSE or R, and the W and C that
43_log_requests.md R136 gives the request are the micro-steps that follow (AppendStoresTheWordAndAdvancesTheCursor). -/
def Obligations.RequestsLeaveEverythingElseUnchanged : Prop :=
  ∀ (i : Instr) (s t : State), isRequest i = true → exec i s = .next t →
    (∀ a, t.mem.readByte a = s.mem.readByte a) ∧ t.cursor = s.cursor ∧ SameOutside s t ∧
    (s.cfg.policy = .nomask → t.maskLevel = s.maskLevel) ∧ (appendAsked s.cfg i = none → t = s)

/-- The operations `exec` refuses are these and no others, each by its name, in both directions: the reserved selector (30_encoding.md R75) and a
debugger read of a disabled build (44_debug_port.md R164); and, by log entry 17, inputs that no run contains: a slot index of N or more, a
LOG request of a unit that does not exist, an append asked for by a context that is not the running one (60_exceptions.md R169), and one
asked for by a context that has an append in flight (42_ring_writer.md R111, R116, R127). -/
def Obligations.RefusalsAreExactlyThese : Prop :=
  ∀ (i : Instr) (s : State) (r : Refusal), exec i s = .refused r ↔
    (i = .reserved ∧ r = .reservedSelector) ∨
    (s.cfg.enable = false ∧ r = .debugDisabled ∧ (i = .dbgRdCursor ∨ ∃ n, i = .dbgRdSlot n)) ∨
    (s.cfg.enable = true ∧ r = .noSuchSlot ∧ ∃ n, i = .dbgRdSlot n ∧ s.cfg.n ≤ n) ∨
    (s.cfg.enable = true ∧ r = .noSuchUnit ∧ ∃ c u v a b, s.cfg.units.length ≤ u ∧
      (i = .logFe c u v a ∨ i = .logFx c u v a ∨ i = .logLe c u v a b ∨ i = .logGe c u v a b)) ∨
    (r = .notRunning ∧ ∃ c w, appendAsked s.cfg i = some (c, w) ∧ s.running c = false) ∨
    (r = .appendInFlight ∧ ∃ c w, appendAsked s.cfg i = some (c, w) ∧ s.running c = true ∧ s.phaseOf c ≠ .idle)

/-! ## Micro-steps -/

/-- R111 (42_ring_writer.md): R reads the cursor into the phase and writes no shared state: under MASK from `Entered(w)`, under NOMASK as
the issue of an append from `Idle`. -/
def Obligations.MicroStepRReadsTheCursor : Prop :=
  (∀ (s : State) (rest : List Input) (f : Frame) (r : List Frame) (w : Word), s.inputs = .micro :: rest →
    s.cfg.policy = .mask → s.stack = f :: r → f.phase = .entered w →
    step s = .next { s with inputs := rest, stack := { f with phase := .read w s.cursor } :: r }) ∧
  (∀ (s : State) (f : Frame) (r : List Frame) (w : Word), s.cfg.enable = true → s.cfg.policy = .nomask →
    s.stack = f :: r → f.phase = .idle →
    exec (.append f.ctx true w) s = .next { s with stack := { f with phase := .read w s.cursor } :: r })

/-- R112 (42_ring_writer.md): W writes `w`, unchanged, to slot `p` and to no other byte, and `p` is in bounds in every state a run
reaches; nothing else changes but the phase. -/
def Obligations.MicroStepWWritesTheSlot : Prop :=
  ∀ (s : State) (rest : List Input) (f : Frame) (r : List Frame) (w : Word) (p : Nat), s.inputs = .micro :: rest →
    s.stack = f :: r → f.phase = .read w p →
    ∃ m : Memory, step s = .next { s with inputs := rest, mem := m, stack := { f with phase := .written p } :: r } ∧
      m.readWord s.cfg.endian (s.cfg.slotAddr p) = w ∧
      (∀ a, (a < s.cfg.slotAddr p ∨ s.cfg.slotAddr p + 4 ≤ a) → m.readByte a = s.mem.readByte a) ∧
      (s.Inv → p < s.cfg.n)

/-- R113 (42_ring_writer.md): C writes `(p + 1) & (N - 1)`, whatever the cursor holds at the time, and leaves `Committed` under MASK and
`Idle` under NOMASK; nothing else changes. -/
def Obligations.MicroStepCWritesTheCursor : Prop :=
  ∀ (s : State) (rest : List Input) (f : Frame) (r : List Frame) (p : Nat), s.inputs = .micro :: rest →
    s.stack = f :: r → f.phase = .written p →
    (s.cfg.policy = .mask → step s = .next { s with
      inputs := rest, cursor := (p + 1) &&& (s.cfg.n - 1), stack := { f with phase := .committed } :: r }) ∧
    (s.cfg.policy = .nomask → step s = .next { s with
      inputs := rest, cursor := (p + 1) &&& (s.cfg.n - 1), stack := { f with phase := .idle } :: r })

/-- R116 (42_ring_writer.md): CSE, the issue of an append under MASK, saves the mask level and raises it to at least the ceiling. -/
def Obligations.MicroStepCseRaisesTheMask : Prop :=
  ∀ (s : State) (f : Frame) (r : List Frame) (w : Word), s.cfg.enable = true → s.cfg.policy = .mask →
    s.stack = f :: r → f.phase = .idle →
    exec (.append f.ctx true w) s = .next { s with
      stack := { f with phase := .entered w, saved := s.maskLevel } :: r
      maskLevel := max s.maskLevel s.cfg.maskCeiling }

/-- R117 (42_ring_writer.md): CSX restores the level saved, not 0, and the context is `Idle`. -/
def Obligations.MicroStepCsxRestoresTheMask : Prop :=
  ∀ (s : State) (rest : List Input) (f : Frame) (r : List Frame), s.inputs = .micro :: rest → s.cfg.policy = .mask →
    s.stack = f :: r → f.phase = .committed →
    step s = .next { s with inputs := rest, maskLevel := f.saved, stack := { f with phase := .idle } :: r }

/-- R125 (42_ring_writer.md): masking by N - 1 is the remainder by N, for every value; so C advances the cursor modulo N. -/
def Obligations.CursorMaskIsTheRemainder : Prop :=
  (∀ k v : Nat, v &&& (2 ^ k - 1) = v % 2 ^ k) ∧
  (∀ (s : State) (p : Nat), (s.advanceFrom p).cursor = (p + 1) % s.cfg.n)

/-- R122 and R126 (42_ring_writer.md), R56 (20_memory.md): in a state a run reaches, every micro-step of the running context's append is
enabled and brings it one nearer its end, and with as many micro-steps as its phase has to go the context is `Idle`. -/
def Obligations.EveryAppendInFlightFinishes : Prop :=
  ∀ (s : State) (rest : List Input) (f : Frame) (r : List Frame), s.Inv → s.stack = f :: r → s.inputs = .micro :: rest →
    f.phase ≠ .idle →
    (∃ t g, step s = .next t ∧ t.stack = g :: r ∧ g.ctx = f.ctx ∧
      g.phase.toGo s.cfg.policy + 1 = f.phase.toGo s.cfg.policy) ∧
    (microSteps (f.phase.toGo s.cfg.policy) s).phaseOf f.ctx = .idle

/-! ## Preemption -/

/-- R170 (60_exceptions.md): an enabled `push d` puts `d` on top, `Idle`; every other context keeps its phase, and nothing else changes. A
push changes the stack only where all three conditions hold (and `d` is a context of `CTX`). -/
def Obligations.PushPreemptsTheRunningContext : Prop :=
  (∀ (s : State) (rest : List Input) (f : Frame) (r : List Frame) (d : Nat), s.inputs = .push d :: rest →
    s.stack = f :: r → d < s.cfg.prios.length → d ∉ s.contexts → s.cfg.prio f.ctx < s.cfg.prio d →
    s.maskLevel < s.cfg.prio d →
    ∃ t, step s = .next t ∧ t.contexts = s.contexts ++ [d] ∧ t.phaseOf d = .idle ∧
      (∀ c, c ≠ d → t.phaseOf c = s.phaseOf c) ∧ t.stack.tail = s.stack ∧
      t = { s with inputs := rest, stack := t.stack }) ∧
  (∀ (s t : State) (rest : List Input) (d : Nat), s.inputs = .push d :: rest → step s = .next t →
    t.contexts ≠ s.contexts →
    d < s.cfg.prios.length ∧ d ∉ s.contexts ∧ s.maskLevel < s.cfg.prio d ∧
      ∃ f r, s.stack = f :: r ∧ s.cfg.prio f.ctx < s.cfg.prio d)

/-- R171 (60_exceptions.md): an enabled `pop d` takes the running context off; the context below goes on with its phase, and nothing
else changes. A pop changes the stack only where its conditions hold: `MAIN` never returns, and no context with an append in flight. -/
def Obligations.PopReturnsToTheContextBelow : Prop :=
  (∀ (s : State) (rest : List Input) (f : Frame) (r : List Frame), s.inputs = .pop f.ctx :: rest →
    s.stack = f :: r → f.ctx ≠ mainCtx → f.phase = .idle →
    ∃ t, step s = .next t ∧ s.contexts = t.contexts ++ [f.ctx] ∧ (∀ c, c ≠ f.ctx → t.phaseOf c = s.phaseOf c) ∧
      t = { s with inputs := rest, stack := r }) ∧
  (∀ (s t : State) (rest : List Input) (d : Nat), s.inputs = .pop d :: rest → step s = .next t →
    t.contexts ≠ s.contexts →
    ∃ f r, s.stack = f :: r ∧ f.ctx = d ∧ d ≠ mainCtx ∧ f.phase = .idle)

/-- The model's choice of log entry 8: a push or a pop that R170 or R171 does not enable, and a `micro` of a context with no append in
flight, are taken up and change nothing. -/
def Obligations.ChoicesNotEnabledChangeNothing : Prop :=
  (∀ (s : State) (rest : List Input) (d : Nat), s.inputs = .push d :: rest →
    (∀ f r, s.stack = f :: r → s.cfg.prios.length ≤ d ∨ d ∈ s.contexts ∨ s.cfg.prio d ≤ s.cfg.prio f.ctx ∨
      s.cfg.prio d ≤ s.maskLevel) →
    step s = .next { s with inputs := rest }) ∧
  (∀ (s : State) (rest : List Input) (d : Nat), s.inputs = .pop d :: rest →
    (∀ f r, s.stack = f :: r → f.ctx ≠ d ∨ d = mainCtx ∨ f.phase ≠ .idle) →
    step s = .next { s with inputs := rest }) ∧
  (∀ (s : State) (rest : List Input), s.inputs = .micro :: rest → (∀ f r, s.stack = f :: r → f.phase = .idle) →
    step s = .next { s with inputs := rest })

/-- R172 (60_exceptions.md): in a state a run reaches, while any context is between CSE and CSX the mask level is at least the ceiling,
so that no context at or below the ceiling is pushed. That the push held off is a choice taken up that changes nothing is log entry 8
(DESIGN CHOICE); R172 says only that it is not enabled. -/
def Obligations.CriticalSectionHoldsMaskedContextsOff : Prop :=
  ∀ (s : State) (f : Frame), s.Inv → s.cfg.policy = .mask → f ∈ s.stack → f.phase ≠ .idle →
    s.cfg.maskCeiling ≤ s.maskLevel ∧
    ∀ (d : Nat) (rest : List Input), s.cfg.prio d ≤ s.cfg.maskCeiling → s.inputs = .push d :: rest →
      step s = .next { s with inputs := rest }

/-! ## Invariants and whole-machine rules -/

/-- The invariant holds after reset, in every legal build; the default build is legal. -/
def Obligations.InvariantHoldsAtReset : Prop :=
  (∀ c : Config, c.Wf → (State.resetOf c).Inv) ∧ State.reset.Inv

/-- Every step keeps the invariant: the memory canonical and inside the storage region, the cursor and every index read below N (R23,
R121), the stack in rising priority over MAIN with every context off it `Idle` (R169, R177), each phase one its policy has (R29),
the mask level the one the critical sections in force raised (R116, R117), and a disabled build at its reset state (R143). -/
def Obligations.EveryStepKeepsTheInvariant : Prop :=
  ∀ s t : State, s.Inv → step s = .next t → t.Inv

/-- R7, R31: no step changes a configuration parameter (log entry 1). -/
def Obligations.NoStepChangesTheBuild : Prop :=
  ∀ s t : State, step s = .next t → t.cfg = s.cfg

/-- R21 (10_state.md): only W writes a slot: where a step other than reset leaves a byte of memory different, the running context took W,
and the byte is one of slot `p`. -/
def Obligations.OnlyWWritesStorage : Prop :=
  ∀ (s t : State) (a : Nat), step s = .next t → s.nextInput ≠ .reset → t.mem.readByte a ≠ s.mem.readByte a →
    s.nextInput = .micro ∧ ∃ f r w p, s.stack = f :: r ∧ f.phase = .read w p ∧
      s.cfg.slotAddr p ≤ a ∧ a < s.cfg.slotAddr p + 4 ∧ t.slot p = w

/-- R25 (10_state.md): only C writes the cursor: where a step other than reset leaves it different, the running context took C, and the
cursor is the index after the one it read. -/
def Obligations.OnlyCWritesTheCursor : Prop :=
  ∀ s t : State, step s = .next t → s.nextInput ≠ .reset → t.cursor ≠ s.cursor →
    s.nextInput = .micro ∧ ∃ f r p, s.stack = f :: r ∧ f.phase = .written p ∧ t.cursor = (p + 1) % s.cfg.n

/-- R172 (60_exceptions.md): only CSE and CSX change the mask level, both under MASK only (R116, R117); and only a push, a pop or a reset
changes which contexts are on the stack (R175, R176). -/
def Obligations.OnlyCseAndCsxChangeTheMask : Prop :=
  (∀ s t : State, step s = .next t → s.nextInput ≠ .reset → t.maskLevel ≠ s.maskLevel →
    s.cfg.policy = .mask ∧ ∃ f r, s.stack = f :: r ∧
      ((f.phase = .idle ∧ (∃ w, t.phaseOf f.ctx = .entered w) ∧ t.maskLevel = max s.maskLevel s.cfg.maskCeiling) ∨
       (s.nextInput = .micro ∧ f.phase = .committed ∧ t.phaseOf f.ctx = .idle ∧ t.maskLevel = f.saved))) ∧
  (∀ s t : State, step s = .next t → t.contexts ≠ s.contexts →
    s.nextInput = .reset ∨ (∃ d, s.nextInput = .push d ∧ t.contexts = s.contexts ++ [d]) ∨
      ∃ d, s.nextInput = .pop d ∧ s.contexts = t.contexts ++ [d])

/-- R183 (60_exceptions.md): under MASK, as long as every context that asks for an append lies at or below the ceiling, at most one append
is in flight, what it read is still the cursor, the cursor advances by one at a time and a word goes to the slot the cursor names.
`soleFlight` is kept by every step and holds at reset. -/
def Obligations.MaskedAppendsNeverOverlap : Prop :=
  (∀ c : Config, soleFlight c (State.resetOf c).cursor (State.resetOf c).stack = true) ∧
  ∀ s t : State, s.Inv → s.cfg.policy = .mask → soleFlight s.cfg s.cursor s.stack = true →
    (∀ i c w, presented s.cfg s.nextInput = some i → appendAsked s.cfg i = some (c, w) →
      s.cfg.prio c ≤ s.cfg.maskCeiling) →
    step s = .next t →
    soleFlight t.cfg t.cursor t.stack = true ∧
    (s.nextInput ≠ .reset →
      (t.cursor = s.cursor ∨ t.cursor = (s.cursor + 1) % s.cfg.n) ∧
      ∀ a, t.mem.readByte a ≠ s.mem.readByte a → s.cfg.slotAddr s.cursor ≤ a ∧ a < s.cfg.slotAddr s.cursor + 4)

/-! ## Runs -/

/-- R27 (10_state.md), R123 and R124 (42_ring_writer.md), from any state a run reaches: a sequential run of appends by the running context
puts word `k` in slot `(cursor + k) mod N` unless a later one overwrote it, leaves the slots no word went to as they were, and moves
the cursor by their number modulo N. -/
def Obligations.SequentialRunFillsTheRing : Prop :=
  ∀ (s : State) (c : Nat) (ws : List Word), s.Inv → s.cfg.enable = true → s.ready c →
    s.inputs = sequentialInputs s.cfg.policy c ws →
    ∃ t, runInputs s = .next t ∧ t.inputs = [] ∧ t.cursor = (s.cursor + ws.length) % s.cfg.n ∧
      (∀ (k : Nat) (w : Word), ws[k]? = some w → ws.length ≤ k + s.cfg.n → t.slot ((s.cursor + k) % s.cfg.n) = w) ∧
      (∀ i, i < s.cfg.n → (∀ k, k < ws.length → (s.cursor + k) % s.cfg.n ≠ i) → t.slot i = s.slot i) ∧
      t.maskLevel = s.maskLevel ∧ t.phaseOf c = .idle

/-- R123 (42_ring_writer.md): a sequential run of M appends from reset leaves the cursor at M mod N, and append k wrote slot k mod N (where
no later append overwrote it); the slots not reached still hold 0 (R27). -/
def Obligations.SequentialRunFromReset : Prop :=
  ∀ (c : Config) (ws : List Word), c.Wf → c.enable = true →
    ∃ t, runInputs { State.resetOf c with inputs := sequentialInputs c.policy mainCtx ws } = .next t ∧
      t.cursor = ws.length % c.n ∧
      (∀ (k : Nat) (w : Word), ws[k]? = some w → ws.length ≤ k + c.n → t.slot (k % c.n) = w) ∧
      (∀ i, ws.length ≤ i → i < c.n → t.slot i = 0)

/-- R120 (42_ring_writer.md), its table: under NOMASK, `c` appends `x` and is preempted once by `d`, which makes a whole append of `y`; the
four places of the preemption and what each leaves in every slot. The later write stands first in each case, so N = 1 is covered: there
`q + 1` is `q`, and slot 0 holds the word written last. That the call is the micro-step R is log entry 9 (DEDUCED). -/
def Obligations.OnePreemptionUnderNomaskHasTheseOutcomes : Prop :=
  ∀ (s : State) (c d : Nat) (x y : Word), s.Inv → s.cfg.policy = .nomask → s.cfg.enable = true →
    s.ready c → d < s.cfg.prios.length → d ∉ s.contexts → s.cfg.prio c < s.cfg.prio d →
    (∃ t, runInputs { s with inputs := visit d [y] ++ appendInputs .nomask c x } = .next t ∧
      (∀ i, t.slot i = if i = (s.cursor + 1) % s.cfg.n then x else if i = s.cursor then y else s.slot i) ∧
      t.cursor = (s.cursor + 2) % s.cfg.n) ∧
    (∃ t, runInputs { s with inputs := .call (.append c true x) :: (visit d [y] ++ [.micro, .micro]) } = .next t ∧
      (∀ i, t.slot i = if i = s.cursor then x else s.slot i) ∧ t.cursor = (s.cursor + 1) % s.cfg.n) ∧
    (∃ t, runInputs { s with inputs := .call (.append c true x) :: .micro :: (visit d [y] ++ [.micro]) } = .next t ∧
      (∀ i, t.slot i = if i = s.cursor then y else s.slot i) ∧ t.cursor = (s.cursor + 1) % s.cfg.n) ∧
    (∃ t, runInputs { s with inputs := appendInputs .nomask c x ++ visit d [y] } = .next t ∧
      (∀ i, t.slot i = if i = (s.cursor + 1) % s.cfg.n then y else if i = s.cursor then x else s.slot i) ∧
      t.cursor = (s.cursor + 2) % s.cfg.n)

/-- R120 (42_ring_writer.md), last paragraph: whatever contexts preempt `c` between its R and C, in however many visits of however many whole
appends each, between R and W (`vs`), between W and C (`us`) or both, `c`'s C still writes `q + 1`, which may move the cursor back. With all of
them between R and W (its example): the first word is lost at once to `x`, and the later ones stand in the slots after `q`, which the next
appends overwrite. Nested preemptions, and any other schedule, are in PreemptedAppendKeepsTheIndexItRead. That the call is the micro-step R
is log entry 9 (DEDUCED). -/
def Obligations.RepeatedPreemptionMovesTheCursorBack : Prop :=
  ∀ (s : State) (c : Nat) (x : Word) (vs us : List (Nat × List Word)), s.Inv → s.cfg.policy = .nomask → s.cfg.enable = true →
    s.ready c → MayPreempt s c vs → MayPreempt s c us →
    (∃ t, runInputs { s with inputs := .call (.append c true x) :: visits vs } = .next t ∧
      t.cursor = (s.cursor + (visitWords vs).length) % s.cfg.n) ∧
    (∃ t, runInputs { s with inputs := .call (.append c true x) :: (visits vs ++ [.micro, .micro]) } = .next t ∧
      t.cursor = (s.cursor + 1) % s.cfg.n ∧ t.slot s.cursor = x ∧
      ∀ (k : Nat) (y : Word), (visitWords vs)[k]? = some y → (visitWords vs).length ≤ k + s.cfg.n → k % s.cfg.n ≠ 0 →
        t.slot ((s.cursor + k) % s.cfg.n) = y) ∧
    (∃ t, runInputs { s with inputs := .call (.append c true x) :: (visits vs ++ .micro :: (visits us ++ [.micro])) } = .next t ∧
      t.cursor = (s.cursor + 1) % s.cfg.n)

/-! ## The debugger -/

/-- R156 and R157 (44_debug_port.md): an enabled read hands over the slot, or the cursor zero-extended, and changes nothing else; in a
state a run reaches the cursor word is below N. -/
def Obligations.DebuggerReadsHandOverOneWord : Prop :=
  (∀ (s : State) (i : Nat), s.cfg.enable = true → i < s.cfg.n →
    exec (.dbgRdSlot i) s = .next { s with dbgOut := s.slot i :: s.dbgOut }) ∧
  (∀ s : State, s.cfg.enable = true →
    ∃ w : Word, exec .dbgRdCursor s = .next { s with dbgOut := w :: s.dbgOut } ∧ w = BitVec.ofNat 32 s.cursor ∧
      (s.Inv → w.toNat = s.cursor ∧ w.toNat < s.cfg.n))

/-- R158 (44_debug_port.md): `MemRead(a, 4)` at a slot's address is that slot's read, at CURSOR_ADDR the cursor's, and every other access is
refused; with ENABLE = 0 every access is (R164). -/
def Obligations.MemReadIsTheByteAddressedSpelling : Prop :=
  ∀ (s : State) (rest : List Input) (a : Word) (width : Nat), s.cfg.Wf → s.inputs = .memRead a width :: rest →
    (s.cfg.enable = false → step s = .refused .debugDisabled) ∧
    (s.cfg.enable = true →
      (∀ i, i < s.cfg.n → width = 4 → a.toNat = s.cfg.slotAddr i → step s = exec (.dbgRdSlot i) { s with inputs := rest }) ∧
      (width = 4 → a.toNat = s.cfg.cursorAddr → step s = exec .dbgRdCursor { s with inputs := rest }) ∧
      ((width ≠ 4 ∨ ((∀ i, i < s.cfg.n → a.toNat ≠ s.cfg.slotAddr i) ∧ a.toNat ≠ s.cfg.cursorAddr)) →
        step s = .refused .debugAccess))

/-- R40, R41, R42 (20_memory.md), R33 (10_state.md): in the byte view, a space of 32-bit addresses, byte `j` of slot `i` and of the cursor
word is byte `j` of the word in the build's order, and no other address holds a byte of TFIFO's. Every slot lies in the view, and so does the
cursor word unless K = 30 (log entry 5). -/
def Obligations.ByteViewShowsSlotsAndCursor : Prop :=
  (∀ s : State, s.cfg.Wf →
    (∀ (a : Word) (i j : Nat), i < s.cfg.n → j < 4 → a.toNat = s.cfg.storageBase + 4 * i + j →
      s.viewByte a = some (wordByte s.cfg.endian (s.slot i) j)) ∧
    (∀ (a : Word) (j : Nat), j < 4 → a.toNat = s.cfg.cursorAddr + j →
      s.viewByte a = some (wordByte s.cfg.endian (BitVec.ofNat 32 s.cursor) j)) ∧
    (∀ a : Word, (a.toNat < s.cfg.storageBase ∨ s.cfg.storageBase + 4 * s.cfg.n ≤ a.toNat) →
      (a.toNat < s.cfg.cursorAddr ∨ s.cfg.cursorAddr + 4 ≤ a.toNat) → s.viewByte a = none) ∧
    (∀ i j, i < s.cfg.n → j < 4 → ∃ a : Word, a.toNat = s.cfg.storageBase + 4 * i + j) ∧
    (s.cfg.k < 30 → ∀ j, j < 4 → ∃ a : Word, a.toNat = s.cfg.cursorAddr + j)) ∧
  (∀ (w : Word) (j : Nat), j < 4 → wordByte .little w j = w.extractLsb' (8 * j) 8 ∧
    wordByte .big w j = w.extractLsb' (24 - 8 * j) 8)

/-- R160 (44_debug_port.md), R197 (70_reset_and_hazards.md): the debugger may look inside an append: between W and C of the append whose index
is the cursor, it reads the cursor as before the append and the newest word in the slot the cursor names. -/
def Obligations.DebuggerSeesTheNewestWordAtTheCursor : Prop :=
  ∀ (s : State) (f : Frame) (r : List Frame) (w : Word), s.Inv → s.cfg.enable = true → s.stack = f :: r →
    f.phase = .read w s.cursor → s.inputs = [.micro, .call .dbgRdCursor, .call (.dbgRdSlot s.cursor)] →
    ∃ t, runInputs s = .next t ∧ t.dbgOut = w :: BitVec.ofNat 32 s.cursor :: s.dbgOut

/-! ## Any schedule, and fair runs -/

/-- R170, R171 (60_exceptions.md: the preempted context keeps its phase and `p`), R113 and R120 (42_ring_writer.md), for any schedule at all:
contexts of any number, nested, with any appends. A step other than a reset moves the phase of an append in flight only if it is that
context's own micro-step. So, from its R on and until its append ends, a context keeps the word and the index it read; when it goes on, W puts
its word in that slot, and C makes the cursor the index after it. -/
def Obligations.PreemptedAppendKeepsTheIndexItRead : Prop :=
  (∀ (s t : State) (c : Nat), step s = .next t → s.nextInput ≠ .reset → s.phaseOf c ≠ .idle → t.phaseOf c ≠ s.phaseOf c →
    s.nextInput = .micro ∧ s.running c = true) ∧
  ∀ (σ : Nat → Input) (r : Nat → State) (n c q : Nat) (x : Word), RunTo σ r n → (∀ k, k < n → σ k ≠ .reset) →
    (r 0).phaseOf c = .read x q → (∀ k, k ≤ n → (r k).phaseOf c ≠ .idle) →
    ((r n).phaseOf c = .read x q ∧ ((r n).running c = true →
      ∃ t, step ((r n).present .micro) = .next t ∧ t.slot q = x ∧ t.phaseOf c = .written q)) ∨
    ((r n).phaseOf c = .written q ∧ ((r n).running c = true →
      ∃ t, step ((r n).present .micro) = .next t ∧ t.cursor = (q + 1) % (r n).cfg.n)) ∨
    ((r n).phaseOf c = .committed ∧ (r n).cfg.policy = .mask)

/-- R184 (60_exceptions.md): in a fair run every issued append completes, however often its context is preempted: it stays in flight until its
context's own last micro-step makes it `Idle`, unless a reset abandons it (70_reset_and_hazards.md R190). `Fair` is R184's two assumptions; how
the second is read under preemption is log entry 18. -/
def Obligations.FairRunsCompleteEveryAppend : Prop :=
  ∀ (σ : Nat → Input) (r : Nat → State) (n c : Nat), (r 0).Inv → Run σ r → Fair σ r → (r n).phaseOf c ≠ .idle →
    ∃ m, n ≤ m ∧ (∀ k, n ≤ k → k ≤ m → (r k).phaseOf c ≠ .idle) ∧ (r (m + 1)).phaseOf c = .idle ∧
      (σ m = .reset ∨ (σ m = .micro ∧ (r m).running c = true))
end

