-- ==== Sys2Proof/Laws/Encoder.lean ====
section
/-! SUPPORT. The fields of the words the Encoder packs (41_encoder.md R91 to R94) and of the encoder's layouts (30_encoding.md
R66), and that a word is its fields. -/

namespace Sys2Proof.Machine

/-! ## The masks, bit by bit -/

theorem getLsbD_identMask (i : Nat) : (0x003FFFFF#32).getLsbD i = decide (i < 22) := by
  by_cases h : i < 32
  · have : ∀ j : Fin 32, (0x003FFFFF#32).getLsbD j = decide (j.val < 22) := by decide
    exact this ⟨i, h⟩
  · rw [BitVec.getLsbD_of_ge _ _ (by omega)]
    simp; omega

theorem getLsbD_eventMask (i : Nat) : (0x3F#32).getLsbD i = decide (i < 6) := by
  by_cases h : i < 32
  · have : ∀ j : Fin 32, (0x3F#32).getLsbD j = decide (j.val < 6) := by decide
    exact this ⟨i, h⟩
  · rw [BitVec.getLsbD_of_ge _ _ (by omega)]
    simp; omega

theorem getLsbD_payloadMask (i : Nat) : (0xFFFF#32).getLsbD i = decide (i < 16) := by
  by_cases h : i < 32
  · have : ∀ j : Fin 32, (0xFFFF#32).getLsbD j = decide (j.val < 16) := by decide
    exact this ⟨i, h⟩
  · rw [BitVec.getLsbD_of_ge _ _ (by omega)]
    simp; omega

/-! ## Each field of a word, bit by bit -/

theorem getLsbD_typeField (ty : BitVec 4) (i : Nat) :
    (typeField ty).getLsbD i = (decide (28 ≤ i) && ty.getLsbD (i - 28)) := by
  simp only [typeField, BitVec.getLsbD_shiftLeft, BitVec.getLsbD_setWidth]
  by_cases h : i < 32
  · by_cases h' : i < 28
    · simp [h', show ¬ 28 ≤ i by omega]
    · simp [h, h', show 28 ≤ i by omega, show i - 28 < 32 by omega]
  · rw [BitVec.getLsbD_of_ge ty (i - 28) (by omega)]
    simp

theorem getLsbD_moduleField (m : Word) (i : Nat) :
    (moduleField m).getLsbD i = (decide (22 ≤ i) && decide (i < 32) && m.getLsbD (i - 22)) := by
  simp only [moduleField, BitVec.getLsbD_shiftLeft]
  by_cases h : i < 32 <;> by_cases h' : i < 22 <;> simp [h, h'] <;> omega

theorem getLsbD_identField (f : Word) (i : Nat) : (identField f).getLsbD i = (decide (i < 22) && f.getLsbD i) := by
  rw [identField, BitVec.getLsbD_and, getLsbD_identMask, Bool.and_comm]

theorem getLsbD_eventField (e : Word) (i : Nat) :
    (eventField e).getLsbD i = (decide (16 ≤ i) && decide (i < 22) && e.getLsbD (i - 16)) := by
  simp only [eventField, BitVec.getLsbD_shiftLeft, BitVec.getLsbD_and, getLsbD_eventMask]
  by_cases h : i < 16
  · simp [h]
  · by_cases h' : i < 22
    · simp [h, h', show i < 32 by omega, show i - 16 < 6 by omega, show 16 ≤ i by omega]
    · simp [h', show ¬ i - 16 < 6 by omega]

theorem getLsbD_payloadField (p : Word) (i : Nat) :
    (payloadField p).getLsbD i = (decide (i < 16) && p.getLsbD i) := by
  rw [payloadField, BitVec.getLsbD_and, getLsbD_payloadMask, Bool.and_comm]

/-! ## The fields of the words packed -/

/-- Two bit vectors of width `n` with the same bits below `n` are equal. -/
theorem eq_of_bits {n : Nat} {x y : BitVec n} (h : ∀ i, i < n → x.getLsbD i = y.getLsbD i) : x = y :=
  BitVec.eq_of_getLsbD_eq fun i hi => h i hi

/-- The fields of a FunctionEnter or FunctionExit word (R91, R92): the module id bleeds into the type field. -/
theorem packIdent_fields (ty : BitVec 4) (m f : Word) :
    typeOf (packIdent ty m f) = ty ||| m.extractLsb' 6 4 ∧ moduleOf (packIdent ty m f) = m.extractLsb' 0 6 ∧
      identOf (packIdent ty m f) = f.extractLsb' 0 22 := by
  refine ⟨eq_of_bits fun i hi => ?_, eq_of_bits fun i hi => ?_, eq_of_bits fun i hi => ?_⟩
  · simp only [typeOf, packIdent, BitVec.getLsbD_extractLsb', BitVec.getLsbD_or,
      getLsbD_typeField, getLsbD_moduleField, getLsbD_identField]
    simp [hi, show 28 + i < 32 by omega, show 28 + i - 22 = 6 + i by omega, show 22 ≤ 28 + i by omega]
  · simp only [moduleOf, packIdent, BitVec.getLsbD_extractLsb', BitVec.getLsbD_or,
      getLsbD_typeField, getLsbD_moduleField, getLsbD_identField]
    simp [hi, show 22 + i < 32 by omega, show ¬ 28 ≤ 22 + i by omega]
  · simp only [identOf, packIdent, BitVec.getLsbD_extractLsb', BitVec.getLsbD_or,
      getLsbD_typeField, getLsbD_moduleField, getLsbD_identField]
    simp [hi, show ¬ 28 ≤ i by omega, show ¬ 22 ≤ i by omega]

/-- The fields of a LocalEvent or GlobalEvent word (R93, R94). -/
theorem packEvent_fields (ty : BitVec 4) (m e p : Word) :
    typeOf (packEvent ty m e p) = ty ||| m.extractLsb' 6 4 ∧ moduleOf (packEvent ty m e p) = m.extractLsb' 0 6 ∧
      eventOf (packEvent ty m e p) = e.extractLsb' 0 6 ∧ payloadOf (packEvent ty m e p) = p.extractLsb' 0 16 := by
  refine ⟨eq_of_bits fun i hi => ?_, eq_of_bits fun i hi => ?_, eq_of_bits fun i hi => ?_, eq_of_bits fun i hi => ?_⟩
  · simp only [typeOf, packEvent, BitVec.getLsbD_extractLsb', BitVec.getLsbD_or,
      getLsbD_typeField, getLsbD_moduleField, getLsbD_eventField, getLsbD_payloadField]
    simp [hi, show 28 + i < 32 by omega, show 28 + i - 22 = 6 + i by omega, show 22 ≤ 28 + i by omega,
      show ¬ 28 + i < 22 by omega, show ¬ 28 + i < 16 by omega]
  · simp only [moduleOf, packEvent, BitVec.getLsbD_extractLsb', BitVec.getLsbD_or,
      getLsbD_typeField, getLsbD_moduleField, getLsbD_eventField, getLsbD_payloadField]
    simp [hi, show 22 + i < 32 by omega, show ¬ 28 ≤ 22 + i by omega, show ¬ 22 + i < 16 by omega]
  · simp only [eventOf, packEvent, BitVec.getLsbD_extractLsb', BitVec.getLsbD_or,
      getLsbD_typeField, getLsbD_moduleField, getLsbD_eventField, getLsbD_payloadField]
    simp [hi, show ¬ 28 ≤ 16 + i by omega, show ¬ 22 ≤ 16 + i by omega, show 16 + i < 22 by omega]
  · simp only [payloadOf, packEvent, BitVec.getLsbD_extractLsb', BitVec.getLsbD_or,
      getLsbD_typeField, getLsbD_moduleField, getLsbD_eventField, getLsbD_payloadField]
    simp [hi, show ¬ 28 ≤ i by omega, show ¬ 22 ≤ i by omega, show ¬ 16 ≤ i by omega]

/-- The fields of the encoder's FunctionEnter and FunctionExit layout (R66). -/
theorem identLayout_fields (ty : BitVec 4) (m f : Word) :
    typeOf (identLayout ty m f) = ty ∧ moduleOf (identLayout ty m f) = m.extractLsb' 0 6 ∧
      identOf (identLayout ty m f) = f.extractLsb' 0 22 := by
  refine ⟨eq_of_bits fun i hi => ?_, eq_of_bits fun i hi => ?_, eq_of_bits fun i hi => ?_⟩
  · simp only [typeOf, identLayout, BitVec.getLsbD_extractLsb', BitVec.getLsbD_append]
    simp [hi, show ¬ 28 + i < 22 by omega,
      show ¬ 28 + i - 22 < 6 by omega, show 28 + i - 22 - 6 = i by omega]
  · simp only [moduleOf, identLayout, BitVec.getLsbD_extractLsb', BitVec.getLsbD_append]
    simp [hi]
  · simp only [identOf, identLayout, BitVec.getLsbD_extractLsb', BitVec.getLsbD_append]
    simp [hi]

/-- The fields of the encoder's LocalEvent and GlobalEvent layout (R66). -/
theorem eventLayout_fields (ty : BitVec 4) (m e p : Word) :
    typeOf (eventLayout ty m e p) = ty ∧ moduleOf (eventLayout ty m e p) = m.extractLsb' 0 6 ∧
      eventOf (eventLayout ty m e p) = e.extractLsb' 0 6 ∧ payloadOf (eventLayout ty m e p) = p.extractLsb' 0 16 := by
  refine ⟨eq_of_bits fun i hi => ?_, eq_of_bits fun i hi => ?_, eq_of_bits fun i hi => ?_, eq_of_bits fun i hi => ?_⟩
  · simp only [typeOf, eventLayout, BitVec.getLsbD_extractLsb', BitVec.getLsbD_append]
    simp [hi, show ¬ 28 + i < 16 by omega,
      show ¬ 28 + i - 16 < 6 by omega, show ¬ 28 + i - 16 - 6 < 6 by omega, show 28 + i - 16 - 6 - 6 = i by omega]
  · simp only [moduleOf, eventLayout, BitVec.getLsbD_extractLsb', BitVec.getLsbD_append]
    simp [hi, show ¬ 22 + i < 16 by omega,
      show ¬ 22 + i - 16 < 6 by omega, show 22 + i - 16 - 6 = i by omega]
  · simp only [eventOf, eventLayout, BitVec.getLsbD_extractLsb', BitVec.getLsbD_append]
    simp [hi]
  · simp only [payloadOf, eventLayout, BitVec.getLsbD_extractLsb', BitVec.getLsbD_append]
    simp [hi]

/-- The identifier field is the event and payload fields together (R67). -/
theorem identOf_eq (w : Word) : identOf w = eventOf w ++ payloadOf w := by
  refine eq_of_bits fun i hi => ?_
  simp only [identOf, eventOf, payloadOf, BitVec.getLsbD_append, BitVec.getLsbD_extractLsb', hi]
  split
  · next h => simp [h]
  · next h => simp [show i - 16 < 6 by omega, show 16 + (i - 16) = i by omega]

/-- No bit of an event word is unused (R67): a word is its type, its module id and its identifier. -/
theorem word_of_fields (w : Word) : w = typeOf w ++ moduleOf w ++ identOf w := by
  refine eq_of_bits fun i hi => ?_
  simp only [typeOf, moduleOf, identOf, BitVec.getLsbD_append, BitVec.getLsbD_extractLsb']
  split
  · next h => simp [h]
  · split
    · next h h' => simp [show i - 22 < 6 from h', show 22 + (i - 22) = i by omega]
    · next h h' => simp [show i - 22 - 6 < 4 by omega, show 28 + (i - 22 - 6) = i by omega]

theorem fields_eq {v w : Word} (h1 : typeOf v = typeOf w) (h2 : moduleOf v = moduleOf w) (h3 : identOf v = identOf w) :
    v = w := by
  rw [word_of_fields v, word_of_fields w, h1, h2, h3]

end Sys2Proof.Machine
end

