-- ==== Sys2Proof/Laws/State.lean ====
section
/-! SUPPORT. One lemma per field per update of the state, true by rfl, so that no proof unfolds a record update. -/

namespace Sys2Proof.Machine

section
variable (s : State) (i d p : Nat) (w : Word)

@[simp] theorem setSlot_cfg : (s.setSlot i w).cfg = s.cfg := rfl
@[simp] theorem setSlot_mem :
    (s.setSlot i w).mem = s.mem.writeWord s.cfg.endian (s.cfg.slotAddr i) w := rfl
@[simp] theorem setSlot_cursor : (s.setSlot i w).cursor = s.cursor := rfl
@[simp] theorem setSlot_stack : (s.setSlot i w).stack = s.stack := rfl
@[simp] theorem setSlot_maskLevel : (s.setSlot i w).maskLevel = s.maskLevel := rfl
@[simp] theorem setSlot_inputs : (s.setSlot i w).inputs = s.inputs := rfl
@[simp] theorem setSlot_tick : (s.setSlot i w).tick = s.tick := rfl
@[simp] theorem setSlot_encOut : (s.setSlot i w).encOut = s.encOut := rfl
@[simp] theorem setSlot_dbgOut : (s.setSlot i w).dbgOut = s.dbgOut := rfl

@[simp] theorem advanceFrom_cfg : (s.advanceFrom p).cfg = s.cfg := rfl
@[simp] theorem advanceFrom_mem : (s.advanceFrom p).mem = s.mem := rfl
@[simp] theorem advanceFrom_stack : (s.advanceFrom p).stack = s.stack := rfl
@[simp] theorem advanceFrom_maskLevel : (s.advanceFrom p).maskLevel = s.maskLevel := rfl
@[simp] theorem advanceFrom_inputs : (s.advanceFrom p).inputs = s.inputs := rfl
@[simp] theorem advanceFrom_tick : (s.advanceFrom p).tick = s.tick := rfl
@[simp] theorem advanceFrom_encOut : (s.advanceFrom p).encOut = s.encOut := rfl
@[simp] theorem advanceFrom_dbgOut : (s.advanceFrom p).dbgOut = s.dbgOut := rfl

@[simp] theorem returnWord_cfg : (s.returnWord w).cfg = s.cfg := rfl
@[simp] theorem returnWord_mem : (s.returnWord w).mem = s.mem := rfl
@[simp] theorem returnWord_cursor : (s.returnWord w).cursor = s.cursor := rfl
@[simp] theorem returnWord_stack : (s.returnWord w).stack = s.stack := rfl
@[simp] theorem returnWord_maskLevel : (s.returnWord w).maskLevel = s.maskLevel := rfl
@[simp] theorem returnWord_inputs : (s.returnWord w).inputs = s.inputs := rfl
@[simp] theorem returnWord_tick : (s.returnWord w).tick = s.tick := rfl
@[simp] theorem returnWord_encOut : (s.returnWord w).encOut = w :: s.encOut := rfl
@[simp] theorem returnWord_dbgOut : (s.returnWord w).dbgOut = s.dbgOut := rfl

@[simp] theorem answerDebugger_cfg : (s.answerDebugger w).cfg = s.cfg := rfl
@[simp] theorem answerDebugger_mem : (s.answerDebugger w).mem = s.mem := rfl
@[simp] theorem answerDebugger_cursor : (s.answerDebugger w).cursor = s.cursor := rfl
@[simp] theorem answerDebugger_stack : (s.answerDebugger w).stack = s.stack := rfl
@[simp] theorem answerDebugger_maskLevel : (s.answerDebugger w).maskLevel = s.maskLevel := rfl
@[simp] theorem answerDebugger_inputs : (s.answerDebugger w).inputs = s.inputs := rfl
@[simp] theorem answerDebugger_tick : (s.answerDebugger w).tick = s.tick := rfl
@[simp] theorem answerDebugger_encOut : (s.answerDebugger w).encOut = s.encOut := rfl
@[simp] theorem answerDebugger_dbgOut : (s.answerDebugger w).dbgOut = w :: s.dbgOut := rfl

@[simp] theorem restart_cfg : s.restart.cfg = s.cfg := rfl
@[simp] theorem restart_mem : s.restart.mem = [] := rfl
@[simp] theorem restart_cursor : s.restart.cursor = 0 := rfl
@[simp] theorem restart_stack : s.restart.stack = [⟨mainCtx, .idle, 0⟩] := rfl
@[simp] theorem restart_maskLevel : s.restart.maskLevel = 0 := rfl
@[simp] theorem restart_inputs : s.restart.inputs = s.inputs := rfl
@[simp] theorem restart_tick : s.restart.tick = s.tick := rfl
@[simp] theorem restart_encOut : s.restart.encOut = s.encOut := rfl
@[simp] theorem restart_dbgOut : s.restart.dbgOut = s.dbgOut := rfl

end

/-! ## The running context: a non-empty stack named by its top frame -/

section
variable (s : State) (f : Frame) (r : List Frame) (ph : Phase)

theorem setPhase_cons (h : s.stack = f :: r) :
    s.setPhase ph = { s with stack := { f with phase := ph } :: r } := by
  simp [State.setPhase, h]

theorem raiseMask_cons (h : s.stack = f :: r) :
    s.raiseMask = { s with stack := { f with saved := s.maskLevel } :: r, maskLevel := max s.maskLevel s.cfg.maskCeiling } := by
  simp [State.raiseMask, h]

theorem restoreMask_cons (h : s.stack = f :: r) : s.restoreMask = { s with maskLevel := f.saved } := by
  simp [State.restoreMask, h]

theorem running_iff (c : Nat) : s.running c = true ↔ ∃ f r, s.stack = f :: r ∧ f.ctx = c := by
  unfold State.running
  cases s.stack <;> simp

theorem phaseOf_top (h : s.stack = f :: r) : s.phaseOf f.ctx = f.phase := by
  simp [State.phaseOf, h]

/-- Only the top frame differs: every other context's phase is the same. -/
theorem phaseOf_below {s t : State} {f g : Frame} {r : List Frame} (hs : s.stack = f :: r) (ht : t.stack = g :: r)
    (hg : g.ctx = f.ctx) {c : Nat} (hc : f.ctx ≠ c) : t.phaseOf c = s.phaseOf c := by
  simp [State.phaseOf, hs, ht, hg, hc]

theorem contexts_cons (h : s.stack = f :: r) : s.contexts = (r.map Frame.ctx).reverse ++ [f.ctx] := by
  simp [State.contexts, h]

end

/-! ## Taking up a choice -/

section
variable (s : State)

@[simp] theorem consume_cfg : s.consume.cfg = s.cfg := by unfold State.consume; cases s.inputs <;> rfl
@[simp] theorem consume_mem : s.consume.mem = s.mem := by unfold State.consume; cases s.inputs <;> rfl
@[simp] theorem consume_cursor : s.consume.cursor = s.cursor := by unfold State.consume; cases s.inputs <;> rfl
@[simp] theorem consume_stack : s.consume.stack = s.stack := by unfold State.consume; cases s.inputs <;> rfl
@[simp] theorem consume_maskLevel : s.consume.maskLevel = s.maskLevel := by unfold State.consume; cases s.inputs <;> rfl
@[simp] theorem consume_encOut : s.consume.encOut = s.encOut := by unfold State.consume; cases s.inputs <;> rfl
@[simp] theorem consume_dbgOut : s.consume.dbgOut = s.dbgOut := by unfold State.consume; cases s.inputs <;> rfl

theorem nextInput_cons {x : Input} {r : List Input} (h : s.inputs = x :: r) : s.nextInput = x := by
  simp [State.nextInput, h]

theorem consume_cons {x : Input} {r : List Input} (h : s.inputs = x :: r) :
    s.consume = { s with inputs := r } := by
  simp [State.consume, h]

end

end Sys2Proof.Machine
end

