-- ==== Sys2Proof/Laws/Memory.lean ====
section
/-! SUPPORT. The laws of memory: a byte read after a write, a word read after a write, the frame of a word write, and that
every operation keeps the canonical form. -/

namespace Sys2Proof.Machine

theorem readByte_of_absent (m : Memory) (a : Nat) (h : ∀ c ∈ m, c.1 ≠ a) : m.readByte a = Memory.unlisted := by
  induction m with
  | nil => rfl
  | cons c t ih =>
    obtain ⟨k, v⟩ := c
    have hk : k ≠ a := h (k, v) (by simp)
    simp only [Memory.readByte, hk, if_false]
    exact ih fun c hc => h c (by simp [hc])

theorem readByte_erase_self (m : Memory) (a : Nat) : (m.erase a).readByte a = Memory.unlisted :=
  readByte_of_absent _ _ fun c hc => by simpa [Memory.erase] using (List.mem_filter.mp hc).2

theorem readByte_erase_ne (m : Memory) {a b : Nat} (h : b ≠ a) : (m.erase a).readByte b = m.readByte b := by
  induction m with
  | nil => rfl
  | cons c t ih =>
    obtain ⟨k, v⟩ := c
    by_cases hk : k = a
    · have : Memory.erase ((k, v) :: t) a = Memory.erase t a := by simp [Memory.erase, hk]
      rw [this, ih]
      simp [Memory.readByte, hk, h.symm]
    · have : Memory.erase ((k, v) :: t) a = (k, v) :: Memory.erase t a := by simp [Memory.erase, hk]
      rw [this]
      simp only [Memory.readByte]
      split
      · rfl
      · exact ih

theorem readByte_insert_self (m : Memory) (a : Nat) (v : Byte) (h : ∀ c ∈ m, c.1 ≠ a) :
    (m.insert a v).readByte a = v := by
  induction m with
  | nil => simp [Memory.insert, Memory.readByte]
  | cons c t ih =>
    obtain ⟨k, x⟩ := c
    have hk : k ≠ a := h (k, x) (by simp)
    simp only [Memory.insert]
    split
    · simp [Memory.readByte]
    · simp only [Memory.readByte, hk, if_false]
      exact ih fun c hc => h c (by simp [hc])

theorem readByte_insert_ne (m : Memory) {a b : Nat} (v : Byte) (h : b ≠ a) :
    (m.insert a v).readByte b = m.readByte b := by
  induction m with
  | nil => simp [Memory.insert, Memory.readByte, h.symm]
  | cons c t ih =>
    obtain ⟨k, x⟩ := c
    simp only [Memory.insert]
    split
    · simp [Memory.readByte, h.symm]
    · simp only [Memory.readByte]
      split
      · rfl
      · exact ih

/-- Read after write: the address written. -/
@[simp] theorem readByte_writeByte_self (m : Memory) (a : Nat) (v : Byte) : (m.writeByte a v).readByte a = v := by
  unfold Memory.writeByte
  split
  · next hv => rw [readByte_erase_self, hv]
  · exact readByte_insert_self _ _ _ fun c hc => by simpa [Memory.erase] using (List.mem_filter.mp hc).2

/-- Read after write: every other address. -/
theorem readByte_writeByte_ne (m : Memory) {a b : Nat} (v : Byte) (h : b ≠ a) :
    (m.writeByte a v).readByte b = m.readByte b := by
  unfold Memory.writeByte
  split
  · exact readByte_erase_ne m h
  · rw [readByte_insert_ne _ _ h, readByte_erase_ne m h]

theorem readByte_writeByte (m : Memory) (a b : Nat) (v : Byte) :
    (m.writeByte a v).readByte b = if b = a then v else m.readByte b := by
  split
  · next h => rw [h, readByte_writeByte_self]
  · next h => exact readByte_writeByte_ne m v h

/-- The frame of a word write: bytes outside the four written read as before. -/
theorem readByte_writeWord_outside (e : Endian) (m : Memory) (a : Nat) (w : Word) {b : Nat}
    (h : b < a ∨ a + 4 ≤ b) : (m.writeWord e a w).readByte b = m.readByte b := by
  have h0 : b ≠ a := by omega
  have h1 : b ≠ a + 1 := by omega
  have h2 : b ≠ a + 2 := by omega
  have h3 : b ≠ a + 3 := by omega
  simp [Memory.writeWord, readByte_writeByte, h0, h1, h2, h3]

/-- The bytes of a word written, one by one. -/
theorem readByte_writeWord_inside (e : Endian) (m : Memory) (a : Nat) (w : Word) {j : Nat} (h : j < 4) :
    (m.writeWord e a w).readByte (a + j) = wordByte e w j := by
  have : j = 0 ∨ j = 1 ∨ j = 2 ∨ j = 3 := by omega
  rcases this with rfl | rfl | rfl | rfl <;> simp [Memory.writeWord, readByte_writeByte]

/-- The bytes of a word, put together again. -/
@[simp] theorem wordOfBytes_wordByte (e : Endian) (w : Word) :
    wordOfBytes e (wordByte e w 0) (wordByte e w 1) (wordByte e w 2) (wordByte e w 3) = w := by
  cases e <;> simp only [wordOfBytes, wordByte] <;> ext i hi <;>
    simp only [BitVec.getElem_append, BitVec.getElem_extractLsb'] <;>
    (repeat' split) <;> simp_all [BitVec.getElem_eq_testBit_toNat] <;> congr 1 <;> omega

/-- The bytes of a word put together from four. -/
theorem wordByte_wordOfBytes (e : Endian) (b0 b1 b2 b3 : Byte) :
    wordBytes e (wordOfBytes e b0 b1 b2 b3) = [b0, b1, b2, b3] := by
  cases e <;> simp only [wordBytes, wordOfBytes, wordByte, List.cons.injEq, and_true] <;>
    refine ⟨?_, ?_, ?_, ?_⟩ <;> ext i hi <;>
    simp only [BitVec.getElem_extractLsb', BitVec.getLsbD_append] <;>
    (repeat' split) <;> simp_all <;> first | omega | (rw [← BitVec.getLsbD_eq_getElem]; congr 1; omega) | (rw [← BitVec.getLsbD_eq_getElem]; congr 1; simp; omega)

/-- A word read where it was written. -/
@[simp] theorem readWord_writeWord_self (e : Endian) (m : Memory) (a : Nat) (w : Word) :
    (m.writeWord e a w).readWord e a = w := by
  have h0 := readByte_writeWord_inside e m a w (j := 0) (by omega)
  have h1 := readByte_writeWord_inside e m a w (j := 1) (by omega)
  have h2 := readByte_writeWord_inside e m a w (j := 2) (by omega)
  have h3 := readByte_writeWord_inside e m a w (j := 3) (by omega)
  rw [Nat.add_zero] at h0
  rw [Memory.readWord, h0, h1, h2, h3, wordOfBytes_wordByte]

/-- A word read elsewhere. -/
theorem readWord_writeWord_apart (e : Endian) (m : Memory) {a b : Nat} (w : Word) (h : b + 4 ≤ a ∨ a + 4 ≤ b) :
    (m.writeWord e a w).readWord e b = m.readWord e b := by
  simp only [Memory.readWord]
  congr 1 <;> exact readByte_writeWord_outside e m a w (by omega)

/-! ## The canonical form is kept -/

theorem wf_nil : Memory.wf [] := ⟨.nil, by simp⟩

theorem erase_wf {m : Memory} (h : m.wf) (a : Nat) : (m.erase a).wf :=
  ⟨h.1.filter _, fun c hc => h.2 c (List.mem_filter.mp hc).1⟩

theorem mem_insert {m : Memory} {a : Nat} {v : Byte} {c : Host.Cell} :
    c ∈ m.insert a v ↔ c = (a, v) ∨ c ∈ m := by
  induction m with
  | nil => simp [Memory.insert]
  | cons d t ih =>
    obtain ⟨k, x⟩ := d
    simp only [Memory.insert]
    split
    · simp
    · simp only [List.mem_cons, ih]
      tauto

theorem insert_wf {m : Memory} (h : m.wf) {a : Nat} {v : Byte} (ha : ∀ c ∈ m, c.1 ≠ a) (hv : v ≠ Memory.unlisted) :
    (m.insert a v).wf := by
  refine ⟨?_, fun c hc => (mem_insert.mp hc).elim (fun e => e ▸ hv) (h.2 c)⟩
  have hs := h.1
  clear h
  induction m with
  | nil => simp [Memory.insert]
  | cons d t ih =>
    obtain ⟨k, x⟩ := d
    have hk : k ≠ a := ha (k, x) (by simp)
    rw [List.pairwise_cons] at hs
    simp only [Memory.insert]
    split
    · next hlt =>
      refine List.pairwise_cons.mpr ⟨fun c hc => ?_, List.pairwise_cons.mpr hs⟩
      rcases List.mem_cons.mp hc with rfl | hc
      · exact hlt
      · exact Nat.lt_trans hlt (hs.1 c hc)
    · refine List.pairwise_cons.mpr ⟨fun c hc => ?_, ih (fun c hc => ha c (by simp [hc])) hs.2⟩
      rcases mem_insert.mp hc with rfl | hc
      · show k < a
        omega
      · exact hs.1 c hc

theorem writeByte_wf {m : Memory} (h : m.wf) (a : Nat) (v : Byte) : (m.writeByte a v).wf := by
  unfold Memory.writeByte
  split
  · exact erase_wf h a
  · next hv =>
    exact insert_wf (erase_wf h a) (fun c hc => by simpa [Memory.erase] using (List.mem_filter.mp hc).2) hv

/-- A word write keeps the canonical form. -/
theorem writeWord_wf {m : Memory} (h : m.wf) (e : Endian) (a : Nat) (w : Word) : (m.writeWord e a w).wf :=
  writeByte_wf (writeByte_wf (writeByte_wf (writeByte_wf h _ _) _ _) _ _) _ _

theorem mem_writeByte {m : Memory} {a : Nat} {v : Byte} {c : Host.Cell} (h : c ∈ m.writeByte a v) :
    c.1 = a ∨ c ∈ m := by
  unfold Memory.writeByte at h
  split at h
  · exact .inr (List.mem_filter.mp h).1
  · rcases mem_insert.mp h with rfl | h
    · exact .inl rfl
    · exact .inr (List.mem_filter.mp h).1

/-- What a word write lists: addresses of the word, or what was listed. -/
theorem mem_writeWord {m : Memory} {e : Endian} {a : Nat} {w : Word} {c : Host.Cell} (h : c ∈ m.writeWord e a w) :
    (a ≤ c.1 ∧ c.1 < a + 4) ∨ c ∈ m := by
  unfold Memory.writeWord at h
  rcases mem_writeByte h with h | h
  · omega
  rcases mem_writeByte h with h | h
  · omega
  rcases mem_writeByte h with h | h
  · omega
  rcases mem_writeByte h with h | h
  · omega
  exact .inr h

/-! ## Slots -/

/-- A slot read after a slot write (10_state.md R20). -/
theorem slot_setSlot (s : State) (i j : Nat) (w : Word) :
    (s.setSlot i w).slot j = if j = i then w else s.slot j := by
  simp only [State.slot, setSlot_mem, setSlot_cfg]
  split
  · next h => rw [h, readWord_writeWord_self]
  · next h => exact readWord_writeWord_apart _ _ _ (by simp only [Config.slotAddr]; omega)

/-- Every slot of an empty memory is 0 (R32). -/
@[simp] theorem readWord_nil (e : Endian) (a : Nat) : Memory.readWord e [] a = 0 := by
  cases e <;> simp [Memory.readWord, Memory.readByte, Memory.unlisted, wordOfBytes]

/-- The cursor as C writes it is the next index modulo `N` (42_ring_writer.md R125). -/
theorem advanceFrom_cursor (s : State) (p : Nat) : (s.advanceFrom p).cursor = (p + 1) % s.cfg.n := by
  simp [State.advanceFrom, Nat.and_two_pow_sub_one_eq_mod]

end Sys2Proof.Machine
end

