-- ==== Sys2Proof/Laws/Ops.lean ====
section
/-! SUPPORT. One lemma per shared operation that says everything it can do; `step_cases` says what a step can do. -/

namespace Sys2Proof.Machine

/-! ## Micro-steps, on a stack whose top is named -/

section
variable {s : State} {f : Frame} {r : List Frame}

theorem microCse_cons (h : s.stack = f :: r) (w : Word) :
    microCse w s = { s with
      stack := { f with phase := .entered w, saved := s.maskLevel } :: r
      maskLevel := max s.maskLevel s.cfg.maskCeiling } := by
  simp [microCse, State.raiseMask, State.setPhase, h]

theorem microR_cons (h : s.stack = f :: r) (w : Word) :
    microR w s = { s with stack := { f with phase := .read w s.cursor } :: r } := by
  simp [microR, State.setPhase, h]

theorem microW_cons (h : s.stack = f :: r) (w : Word) (p : Nat) :
    microW w p s = { s with
      mem := s.mem.writeWord s.cfg.endian (s.cfg.slotAddr p) w
      stack := { f with phase := .written p } :: r } := by
  simp [microW, State.setSlot, State.setPhase, h]

theorem microC_cons (h : s.stack = f :: r) (p : Nat) :
    microC p s = { s with
      cursor := (p + 1) % s.cfg.n
      stack := { f with phase := phaseAfterC s.cfg.policy } :: r } := by
  simp [microC, State.advanceFrom, State.setPhase, h, Nat.and_two_pow_sub_one_eq_mod]

theorem microCsx_cons (h : s.stack = f :: r) :
    microCsx s = { s with maskLevel := f.saved, stack := { f with phase := .idle } :: r } := by
  simp [microCsx, State.restoreMask, State.setPhase, h]

/-! `micro`, by the phase of the running context. -/

theorem microStep_entered (h : s.stack = f :: r) {w : Word} (hp : f.phase = .entered w) (hm : s.cfg.policy = .mask) :
    microStep s = microR w s := by
  simp [microStep, h, hp, hm]

theorem microStep_read (h : s.stack = f :: r) {w : Word} {p : Nat} (hp : f.phase = .read w p) :
    microStep s = microW w p s := by
  simp [microStep, h, hp]

theorem microStep_written (h : s.stack = f :: r) {p : Nat} (hp : f.phase = .written p) : microStep s = microC p s := by
  simp [microStep, h, hp]

theorem microStep_committed (h : s.stack = f :: r) (hp : f.phase = .committed) (hm : s.cfg.policy = .mask) :
    microStep s = microCsx s := by
  simp [microStep, h, hp, hm]

end

/-- What `micro` can do: nothing, or the one micro-step the running context's phase enables. -/
theorem microStep_cases (s : State) :
    microStep s = s ∨ ∃ f r, s.stack = f :: r ∧
      ((∃ w, f.phase = .entered w ∧ s.cfg.policy = .mask ∧ microStep s = microR w s) ∨
       (∃ w p, f.phase = .read w p ∧ microStep s = microW w p s) ∨
       (∃ p, f.phase = .written p ∧ microStep s = microC p s) ∨
       (f.phase = .committed ∧ s.cfg.policy = .mask ∧ microStep s = microCsx s)) := by
  cases hs : s.stack with
  | nil => exact .inl (by simp [microStep, hs])
  | cons f r =>
    cases hp : f.phase <;> cases hc : s.cfg.policy <;>
      first
      | (left; simp [microStep, hs, hp, hc]; done)
      | (right; refine ⟨f, r, rfl, ?_⟩; simp [microStep, hs, hp, hc])

/-! ## Issuing an append -/

/-- A context that may issue an append is on top, `Idle`. -/
theorem ready_iff (s : State) (c : Nat) :
    s.ready c ↔ ∃ f r, s.stack = f :: r ∧ f.ctx = c ∧ f.phase = .idle := by
  constructor
  · rintro ⟨h1, h2⟩
    obtain ⟨f, r, hs, rfl⟩ := (running_iff s c).mp h1
    exact ⟨f, r, hs, rfl, by rwa [phaseOf_top s f r hs] at h2⟩
  · rintro ⟨f, r, hs, rfl, hp⟩
    exact ⟨(running_iff s f.ctx).mpr ⟨f, r, hs, rfl⟩, by rw [phaseOf_top s f r hs, hp]⟩

/-- An append issued by a context that may: its first micro-step. -/
theorem issueAppend_ready {s : State} {c : Nat} (h : s.ready c) (w : Word) :
    issueAppend c w s = .next (firstMicro w s) := by
  obtain ⟨f, r, hs, rfl, hp⟩ := (ready_iff s c).mp h
  simp [issueAppend, hs, hp]

/-- EVERYTHING THE ISSUE OF AN APPEND CAN DO: be refused for one of two reasons, or its first micro-step. -/
theorem issueAppend_eq (s : State) (c : Nat) (w : Word) :
    issueAppend c w s =
      if s.running c = false then .refused .notRunning
      else if s.phaseOf c ≠ .idle then .refused .appendInFlight
      else .next (firstMicro w s) := by
  cases hs : s.stack with
  | nil => simp [issueAppend, State.running, hs]
  | cons f r =>
    by_cases hc : f.ctx = c
    · subst hc
      simp [issueAppend, State.running, hs, phaseOf_top s f r hs]
    · simp [issueAppend, State.running, hs, hc]

/-- If an append is issued at all, its context may. -/
theorem issueAppend_next {s t : State} {c : Nat} {w : Word} (h : issueAppend c w s = .next t) :
    s.ready c ∧ t = firstMicro w s := by
  have hr : s.ready c := by
    refine (ready_iff s c).mpr ?_
    unfold issueAppend at h
    split at h
    · cases h
    · next f r hs =>
      split at h
      · cases h
      · next hc =>
        split at h
        · cases h
        · next hp => exact ⟨f, r, hs, by simpa using hc, by simpa using hp⟩
  rw [issueAppend_ready hr] at h
  exact ⟨hr, by cases h; rfl⟩

/-! ## Requests -/

theorem allowed_iff (v T : Int) : allowed v T = true ↔ 0 < v ∧ v ≤ T := by simp [allowed]

theorem appendRequest_eq (s : State) (c : Nat) (r : Bool) (w : Word) :
    appendRequest c r w s = if s.cfg.enable = true ∧ r = true then issueAppend c w s else .next s := by
  simp [appendRequest]

/-- A LOG request whose unit exists: the append of its word, or `skip`. -/
theorem logRequest_eq {s : State} {u : Nat} {un : UnitCfg} (hu : s.cfg.units[u]? = some un) (c : Nat) (v : Int)
    (enc : Word → Word) :
    logRequest c u v enc s =
      if s.cfg.enable = true ∧ 0 < v ∧ v ≤ un.threshold then issueAppend c (enc un.moduleId) s else .next s := by
  by_cases he : s.cfg.enable = true
  · simp only [logRequest, he, hu, allowed_iff, appendRequest_eq, true_and, and_self, if_true]
  · simp [logRequest, he]

/-- The append a LOG request of an existing unit asks for. -/
theorem logRequest_cases (s : State) (c u : Nat) (v : Int) (enc : Word → Word) (asked : Option (Nat × Word))
    (ha : asked = match s.cfg.units[u]? with
      | none => none
      | some un => if s.cfg.enable = true ∧ 0 < v ∧ v ≤ un.threshold then some (c, enc un.moduleId) else none) :
    (∃ w, asked = some (c, w) ∧ logRequest c u v enc s = issueAppend c w s) ∨
    (asked = none ∧ logRequest c u v enc s = .next s) ∨
    (asked = none ∧ s.cfg.enable = true ∧ s.cfg.units[u]? = none ∧ logRequest c u v enc s = .refused .noSuchUnit) := by
  cases hu : s.cfg.units[u]? with
  | none =>
    rw [hu] at ha
    by_cases he : s.cfg.enable = true
    · exact .inr (.inr ⟨ha, he, rfl, by simp [logRequest, he, hu]⟩)
    · exact .inr (.inl ⟨ha, by simp [logRequest, he]⟩)
  | some un =>
    rw [hu] at ha
    rw [logRequest_eq hu]
    split
    · next h => exact .inl ⟨enc un.moduleId, by simpa [h] using ha, rfl⟩
    · next h => exact .inr (.inl ⟨by simpa [h] using ha, rfl⟩)

/-- EVERYTHING A REQUEST CAN DO: issue the append it asks for; nothing, where it asks for none; or be refused, enabled, for
a unit that does not exist. -/
theorem request_cases {i : Instr} (hi : isRequest i = true) (s : State) :
    (∃ c w, appendAsked s.cfg i = some (c, w) ∧ exec i s = issueAppend c w s) ∨
    (appendAsked s.cfg i = none ∧ exec i s = .next s) ∨
    (appendAsked s.cfg i = none ∧ s.cfg.enable = true ∧ exec i s = .refused .noSuchUnit) := by
  have log (c u : Nat) (v : Int) (enc : Word → Word)
      (h : appendAsked s.cfg i = match s.cfg.units[u]? with
        | none => none
        | some un => if s.cfg.enable = true ∧ 0 < v ∧ v ≤ un.threshold then some (c, enc un.moduleId) else none)
      (he : exec i s = logRequest c u v enc s) :
      (∃ c w, appendAsked s.cfg i = some (c, w) ∧ exec i s = issueAppend c w s) ∨
      (appendAsked s.cfg i = none ∧ exec i s = .next s) ∨
      (appendAsked s.cfg i = none ∧ s.cfg.enable = true ∧ exec i s = .refused .noSuchUnit) := by
    rcases logRequest_cases s c u v enc _ h with ⟨w, h1, h2⟩ | ⟨h1, h2⟩ | ⟨h1, h2, -, h3⟩
    · exact .inl ⟨c, w, h1, he.trans h2⟩
    · exact .inr (.inl ⟨h1, he.trans h2⟩)
    · exact .inr (.inr ⟨h1, h2, he.trans h3⟩)
  cases i with
  | append c r w =>
    simp only [exec, execAppend, appendRequest_eq, appendAsked]
    split
    · exact .inl ⟨c, w, rfl, rfl⟩
    · exact .inr (.inl ⟨rfl, rfl⟩)
  | logFe c u v f => exact log c u v (fun m => wordFe s.cfg m f) rfl rfl
  | logFx c u v f => exact log c u v (fun m => wordFx s.cfg m f) rfl rfl
  | logLe c u v e p => exact log c u v (fun m => wordLe s.cfg m e p) rfl rfl
  | logGe c u v e p => exact log c u v (fun m => wordGe s.cfg m e p) rfl rfl
  | encFe m f => cases hi
  | encFx m f => cases hi
  | encLe m e p => cases hi
  | encGe m e p => cases hi
  | dbgRdSlot n => cases hi
  | dbgRdCursor => cases hi
  | reserved => cases hi

/-- What an operation that goes on did: the Encoder returned a word, the debugger got one, the request was `skip`, or
it issued the append it asks for. -/
theorem exec_cases {i : Instr} {s t : State} (h : exec i s = .next t) :
    (∃ w, t = s.returnWord w) ∨ (∃ w, t = s.answerDebugger w) ∨ t = s ∨
      ∃ c w, appendAsked s.cfg i = some (c, w) ∧ issueAppend c w s = .next t := by
  have request (hi : isRequest i = true) : t = s ∨
      ∃ c w, appendAsked s.cfg i = some (c, w) ∧ issueAppend c w s = .next t := by
    rcases request_cases hi s with ⟨c, w, h1, h2⟩ | ⟨-, h2⟩ | ⟨-, -, h2⟩
    · exact .inr ⟨c, w, h1, h2 ▸ h⟩
    · rw [h2] at h
      cases h
      exact .inl rfl
    · rw [h2] at h
      cases h
  cases i with
  | encFe m f => cases h; exact .inl ⟨_, rfl⟩
  | encFx m f => cases h; exact .inl ⟨_, rfl⟩
  | encLe m e p => cases h; exact .inl ⟨_, rfl⟩
  | encGe m e p => cases h; exact .inl ⟨_, rfl⟩
  | append c r w => exact .inr (.inr (request rfl))
  | logFe c u v f => exact .inr (.inr (request rfl))
  | logFx c u v f => exact .inr (.inr (request rfl))
  | logLe c u v e p => exact .inr (.inr (request rfl))
  | logGe c u v e p => exact .inr (.inr (request rfl))
  | dbgRdSlot n =>
    simp only [exec, execDbgRdSlot] at h
    split at h
    · split at h
      · cases h; exact .inr (.inl ⟨_, rfl⟩)
      · cases h
    · cases h
  | dbgRdCursor =>
    simp only [exec, execDbgRdCursor] at h
    split at h
    · cases h; exact .inr (.inl ⟨_, rfl⟩)
    · cases h
  | reserved => cases h

/-- What a debugger access that goes on did. -/
theorem debugMemRead_next {a : Word} {width : Nat} {s t : State} (h : debugMemRead a width s = .next t) :
    ∃ w, t = s.answerDebugger w := by
  unfold debugMemRead execDbgRdSlot execDbgRdCursor at h
  repeat' split at h
  all_goals first | (cases h; exact ⟨_, rfl⟩) | cases h

/-- Bytes that are performed present the operation they decode to. -/
theorem performBytes_next {f : Format} {bs : List Byte} {s t : State} (h : performBytes f bs s = .next t) :
    ∃ i r, decode s.cfg f bs = .ok (i, r) ∧ exec i s = .next t := by
  unfold performBytes at h
  split at h
  · next i r hd => exact ⟨i, r, hd, h⟩
  · cases h

/-- WHAT A STEP CAN DO. With `s'` the state once the next choice is taken up: a word is returned by the Encoder or to the
debugger, nothing happens, an append is issued as an operation asked, the running context takes its micro-step, a
context is pushed or popped, or the machine is reset. -/
theorem step_cases {s t : State} (h : step s = .next t) :
    (∃ w, t = s.consume.returnWord w) ∨
    (∃ w, t = s.consume.answerDebugger w) ∨
    t = s.consume ∨
    (∃ i c w, presented s.cfg s.nextInput = some i ∧ appendAsked s.cfg i = some (c, w) ∧
      issueAppend c w s.consume = .next t) ∨
    (s.nextInput = .micro ∧ t = microStep s.consume) ∨
    (∃ d, s.nextInput = .push d ∧ t = s.consume.push d) ∨
    (∃ d, s.nextInput = .pop d ∧ t = s.consume.pop d) ∨
    (s.nextInput = .reset ∧ t = s.consume.restart) := by
  have key : ∀ i, presented s.cfg s.nextInput = some i → exec i s.consume = .next t →
      (∃ w, t = s.consume.returnWord w) ∨ (∃ w, t = s.consume.answerDebugger w) ∨ t = s.consume ∨
      (∃ i c w, presented s.cfg s.nextInput = some i ∧ appendAsked s.cfg i = some (c, w) ∧
        issueAppend c w s.consume = .next t) := by
    intro i hi he
    rcases exec_cases he with h | h | h | ⟨c, w, ha, h⟩
    · exact .inl h
    · exact .inr (.inl h)
    · exact .inr (.inr (.inl h))
    · exact .inr (.inr (.inr ⟨i, c, w, hi, by simpa using ha, h⟩))
  have lift : ∀ i, presented s.cfg s.nextInput = some i → exec i s.consume = .next t → _ := fun i hi he =>
    (key i hi he).imp_right (Or.imp_right (Or.imp_right (Or.inl (b := (s.nextInput = .micro ∧ t = microStep s.consume) ∨
      (∃ d, s.nextInput = .push d ∧ t = s.consume.push d) ∨ (∃ d, s.nextInput = .pop d ∧ t = s.consume.pop d) ∨
      (s.nextInput = .reset ∧ t = s.consume.restart)))))
  unfold step at h
  cases hx : s.nextInput with
  | call i =>
    rw [hx] at h
    simpa only [hx] using lift i (by simp [hx, presented]) h
  | record bs =>
    rw [hx] at h
    obtain ⟨i, r, hd, he⟩ := performBytes_next h
    simpa only [hx] using lift i (by rw [consume_cfg] at hd; simp [hx, presented, hd]) he
  | event bs =>
    rw [hx] at h
    obtain ⟨i, r, hd, he⟩ := performBytes_next h
    simpa only [hx] using lift i (by rw [consume_cfg] at hd; simp [hx, presented, hd]) he
  | micro => rw [hx] at h; cases h; simp
  | push d => rw [hx] at h; cases h; simp
  | pop d => rw [hx] at h; cases h; simp
  | memRead a width =>
    rw [hx] at h
    exact .inr (.inl (debugMemRead_next h))
  | reset => rw [hx] at h; cases h; simp

end Sys2Proof.Machine
end

