-- ==== Sys2Proof/Laws/PerInstr.lean ====
section
/-! SUPPORT. The per-instruction family FixedShape: every operation has its format's fixed size (30_encoding.md R67, R78), whatever
its operands and the build. -/

namespace Sys2Proof.Laws.FixedShape

/-- The bytes of an operation are as many as its format has (R78: no variable-length form). -/
def Statement (i : Instr) : Prop := ∀ c : Config, (encode c i).length = i.format.size

theorem encFe (m f : Word) : Statement (.encFe m f) := fun _ => rfl
theorem encFx (m f : Word) : Statement (.encFx m f) := fun _ => rfl
theorem encLe (m e p : Word) : Statement (.encLe m e p) := fun _ => rfl
theorem encGe (m e p : Word) : Statement (.encGe m e p) := fun _ => rfl
theorem append (c : Nat) (r : Bool) (w : Word) : Statement (.append c r w) := fun _ => rfl
theorem logFe (c u : Nat) (v : Int) (f : Word) : Statement (.logFe c u v f) := fun _ => rfl
theorem logFx (c u : Nat) (v : Int) (f : Word) : Statement (.logFx c u v f) := fun _ => rfl
theorem logLe (c u : Nat) (v : Int) (e p : Word) : Statement (.logLe c u v e p) := fun _ => rfl
theorem logGe (c u : Nat) (v : Int) (e p : Word) : Statement (.logGe c u v e p) := fun _ => rfl
theorem dbgRdSlot (i : Nat) : Statement (.dbgRdSlot i) := fun _ => rfl
theorem dbgRdCursor : Statement .dbgRdCursor := fun _ => rfl
theorem reserved : Statement .reserved := fun _ => rfl

end Sys2Proof.Laws.FixedShape
end

