-- ==== Sys2Proof/Laws/Run.lean ====
section
/-! SUPPORT. A step on each kind of choice, one whole append as one equation per policy, and runs taken apart. -/

namespace Sys2Proof.Machine

/-! ## A step, choice by choice -/

section
variable {s : State} {rest : List Input}

theorem step_call {i : Instr} (h : s.inputs = .call i :: rest) : step s = exec i { s with inputs := rest } := by
  simp [step, nextInput_cons s h, consume_cons s h, perform]

theorem step_micro (h : s.inputs = .micro :: rest) : step s = .next (microStep { s with inputs := rest }) := by
  simp [step, nextInput_cons s h, consume_cons s h, perform]

theorem step_push {d : Nat} (h : s.inputs = .push d :: rest) :
    step s = .next (State.push { s with inputs := rest } d) := by
  simp [step, nextInput_cons s h, consume_cons s h, perform]

theorem step_pop {d : Nat} (h : s.inputs = .pop d :: rest) :
    step s = .next (State.pop { s with inputs := rest } d) := by
  simp [step, nextInput_cons s h, consume_cons s h, perform]

theorem step_reset (h : s.inputs = .reset :: rest) : step s = .next (State.restart { s with inputs := rest }) := by
  simp [step, nextInput_cons s h, consume_cons s h, perform]

theorem step_memRead {a : Word} {width : Nat} (h : s.inputs = .memRead a width :: rest) :
    step s = debugMemRead a width { s with inputs := rest } := by
  simp [step, nextInput_cons s h, consume_cons s h, perform]

/-- A choice presented is performed. -/
theorem step_present (s : State) (x : Input) : step (s.present x) = perform x { s with inputs := [] } := by
  rw [step, nextInput_cons (s.present x) rfl, consume_cons (s.present x) rfl]
  rfl

end

/-! ## Push and pop, enabled -/

theorem push_enabled {s : State} {d : Nat} (h : s.pushEnabled d = true) :
    s.push d = { s with stack := ⟨d, .idle, 0⟩ :: s.stack } := by
  simp [State.push, h]

theorem pop_enabled {s : State} {d : Nat} (h : s.popEnabled d = true) : s.pop d = { s with stack := s.stack.tail } := by
  simp [State.pop, h]

theorem pushEnabled_iff {s : State} {f : Frame} {r : List Frame} (h : s.stack = f :: r) (d : Nat) :
    s.pushEnabled d = true ↔
      d < s.cfg.prios.length ∧ d ∉ s.contexts ∧ s.cfg.prio f.ctx < s.cfg.prio d ∧ s.maskLevel < s.cfg.prio d := by
  simp only [State.pushEnabled, h, State.contexts, Bool.and_eq_true, decide_eq_true_eq, List.all_eq_true,
    List.mem_reverse, List.mem_map, bne_iff_ne, ne_eq, not_exists, not_and, and_assoc]

theorem popEnabled_iff {s : State} {f : Frame} {r : List Frame} (h : s.stack = f :: r) (d : Nat) :
    s.popEnabled d = true ↔ f.ctx = d ∧ d ≠ mainCtx ∧ f.phase = .idle := by
  simp only [State.popEnabled, h, Bool.and_eq_true, decide_eq_true_eq, bne_iff_ne, beq_iff_eq, and_assoc]

/-! ## One whole append, as one equation per policy -/

section
variable {s : State} {f : Frame} {r : List Frame}

/-- R115 as one equation. -/
theorem microSteps_mask (hc : s.cfg.policy = .mask) (h : s.stack = f :: r) (w : Word) :
    microSteps (restSteps s.cfg.policy) (firstMicro w s) = { s with
      mem := s.mem.writeWord s.cfg.endian (s.cfg.slotAddr s.cursor) w
      cursor := (s.cursor + 1) % s.cfg.n
      stack := { f with phase := .idle, saved := s.maskLevel } :: r } := by
  simp only [restSteps, hc, firstMicro, microSteps, microCse_cons h]
  simp [microStep, hc, microR, microW, microC, microCsx, State.setPhase, State.setSlot, State.advanceFrom, phaseAfterC,
    State.restoreMask, Nat.and_two_pow_sub_one_eq_mod]

/-- R119 as one equation. -/
theorem microSteps_nomask (hc : s.cfg.policy = .nomask) (h : s.stack = f :: r) (w : Word) :
    microSteps (restSteps s.cfg.policy) (firstMicro w s) = { s with
      mem := s.mem.writeWord s.cfg.endian (s.cfg.slotAddr s.cursor) w
      cursor := (s.cursor + 1) % s.cfg.n
      stack := { f with phase := .idle } :: r } := by
  simp only [restSteps, hc, firstMicro, microSteps, microR_cons h]
  simp [microStep, hc, microW, microC, State.setPhase, State.setSlot, State.advanceFrom, phaseAfterC,
    Nat.and_two_pow_sub_one_eq_mod]

end

/-! ## Runs -/

/-- A run goes on from the state its first step gives. -/
theorem run_succ {s t : State} (h : step s = .next t) (k : Nat) :
    Sys2Proof.core.run (k + 1) s = Sys2Proof.core.run k t := by
  simp only [Host.Core.run, show Sys2Proof.core.step s = .next t from h]

/-- A run of two parts. -/
theorem run_add {s t : State} {k : Nat} (h : Sys2Proof.core.run k s = .next t) (j : Nat) :
    Sys2Proof.core.run (k + j) s = Sys2Proof.core.run j t := by
  induction k generalizing s with
  | zero =>
    cases h
    rw [Nat.zero_add]
  | succ k ih =>
    cases hs : step s with
    | next u =>
      rw [run_succ hs] at h
      rw [Nat.add_right_comm, run_succ hs]
      exact ih h
    | fault e => cases e
    | refused e =>
      simp only [Host.Core.run, show Sys2Proof.core.step s = .refused e from hs] at h
      cases h

/-- Micro-steps commute with what stands in the list of choices. -/
theorem microStep_inputs (s : State) (l : List Input) :
    microStep { s with inputs := l } = { microStep s with inputs := l } := by
  obtain ⟨⟨_, policy, _, _, _, _, _, _, _, _, _, _, _⟩, _, _, stack, _, _, _, _, _⟩ := s
  cases stack with
  | nil => rfl
  | cons f r =>
    obtain ⟨_, phase, _⟩ := f
    cases phase <;> cases policy <;> rfl

/-- `k` choices `micro` in a row are `k` micro-steps. -/
theorem run_micros (k : Nat) (s : State) (rest : List Input) (h : s.inputs = List.replicate k .micro ++ rest) :
    Sys2Proof.core.run k s = .next { microSteps k s with inputs := rest } := by
  induction k generalizing s with
  | zero =>
    simp only [List.replicate, List.nil_append] at h
    subst h
    rfl
  | succ k ih =>
    rw [List.replicate_succ, List.cons_append] at h
    rw [run_succ (step_micro h), microStep_inputs, ih _ rfl]
    congr 1
    change _ = { microSteps k (microStep s) with inputs := rest }
    have : ∀ (j : Nat) (u : State) (l : List Input), { microSteps j { u with inputs := l } with inputs := rest } =
        { microSteps j u with inputs := rest } := by
      intro j
      induction j with
      | zero => intro u l; rfl
      | succ j ihj =>
        intro u l
        simp only [microSteps, microStep_inputs]
        exact ihj _ _
    exact this k _ _

end Sys2Proof.Machine
end

