-- ==== Sys2Proof/Tests/Slice0.lean ====
section
/-! SUPPORT. Tests: ill-formed operands refused, words written out bit by bit, single steps with results from
95_test_vectors.md, and for every statement that has hypotheses a state and operands that meet them. -/

namespace Sys2Proof.Tests

open Sys2Proof.Machine

/-! ## Small builds and states -/

/-- CFG_SMALL(k) of R8 with contexts main (0), irq1 (1), nmi (3) and the ceiling 1: the build of programs P3 and P5. -/
def build (k : Nat) (p : Policy) : Config := { Config.small k with policy := p, prios := [0, 1, 3], maskCeiling := 1 }

/-- The same build, disabled. -/
def off (k : Nat) : Config := { build k .mask with enable := false }

/-- A state of a build: its cursor, stack, mask level and choices. -/
def at' (c : Config) (cursor : Nat) (stack : List Frame) (level : Nat) (inputs : List Input) : State :=
  { State.resetOf c with cursor := cursor, stack := stack, maskLevel := level, inputs := inputs }

/-- The state after an operation that goes on; the state it started from otherwise. -/
def after (i : Instr) (s : State) : State := match exec i s with | .next t => t | .fault _ => s | .refused _ => s

/-- The state after a step that goes on. -/
def stepped (s : State) : State := match step s with | .next t => t | .fault _ => s | .refused _ => s

/-- `main` alone, Idle. -/
def idle : List Frame := [⟨0, .idle, 0⟩]

/-- `main` inside an append, in a phase. -/
def busy (ph : Phase) : List Frame := [⟨0, ph, 0⟩]

/-! ## WellFormed: for each check a term it refuses, beside one at the limit that it accepts -/

theorem smoke_fe_module : (Instr.encFe 64 0).wf Config.default = false ∧ (Instr.encFe 63 0).wf Config.default = true := by decide
theorem smoke_fe_ident : (Instr.encFe 0 0x400000).wf Config.default = false ∧ (Instr.encFe 0 0x3FFFFF).wf Config.default = true := by decide
theorem smoke_fx : (Instr.encFx 64 0).wf Config.default = false ∧ (Instr.encFx 0 0x400000).wf Config.default = false := by decide
theorem smoke_le : (Instr.encLe 64 0 0).wf Config.default = false ∧ (Instr.encLe 0 64 0).wf Config.default = false ∧
    (Instr.encLe 0 0 65536).wf Config.default = false ∧ (Instr.encLe 63 63 65535).wf Config.default = true := by decide
theorem smoke_ge : (Instr.encGe 64 0 0).wf Config.default = false ∧ (Instr.encGe 0 64 0).wf Config.default = false ∧
    (Instr.encGe 0 0 65536).wf Config.default = false ∧ (Instr.encGe 63 63 65535).wf Config.default = true := by decide
theorem smoke_append : (Instr.append 3 true 0).wf Config.default = false ∧ (Instr.append 2 true 0).wf Config.default = true := by decide
theorem smoke_log_fe : (Instr.logFe 3 0 1 0).wf Config.default = false ∧ (Instr.logFe 0 2 1 0).wf Config.default = false ∧
    (Instr.logFe 0 0 2147483648 0).wf Config.default = false ∧ (Instr.logFe 2 1 2147483647 0).wf Config.default = true := by decide
theorem smoke_log_fx : (Instr.logFx 3 0 1 0).wf Config.default = false ∧ (Instr.logFx 0 2 1 0).wf Config.default = false ∧
    (Instr.logFx 0 0 (-2147483649) 0).wf Config.default = false ∧ (Instr.logFx 2 1 (-2147483648) 0).wf Config.default = true := by decide
theorem smoke_log_le : (Instr.logLe 3 0 1 0 0).wf Config.default = false ∧ (Instr.logLe 0 2 1 0 0).wf Config.default = false ∧
    (Instr.logLe 0 0 2147483648 0 0).wf Config.default = false := by decide
theorem smoke_log_ge : (Instr.logGe 3 0 1 0 0).wf Config.default = false ∧ (Instr.logGe 0 2 1 0 0).wf Config.default = false ∧
    (Instr.logGe 0 0 2147483648 0 0).wf Config.default = false := by decide
theorem smoke_slot : (Instr.dbgRdSlot 1024).wf Config.default = false ∧ (Instr.dbgRdSlot 1023).wf Config.default = true := by decide

/-! ## Decoding: words and selectors written out from R66 and R74 -/

/-- Type 1, module id 3, identifier 0x345678 (41_encoder.md R91's example). -/
theorem decode_enc_fe : decodeTableWord 32 0b0001_000011_1101000101011001111000 = some (.encFe 3 0x345678) := by decide
/-- Type 2, module id 63, identifier 0x2BCDEF (L2-E1's `0x2FEBCDEF`). -/
theorem decode_enc_fx : decodeTableWord 32 0b0010_111111_1010111100110111101111 = some (.encFx 63 0x2BCDEF) := by decide
/-- Type 3, module id 3, event id 5, payload 0xABCD (L1-2). -/
theorem decode_enc_le : decodeTableWord 32 0b0011_000011_000101_1010101111001101 = some (.encLe 3 5 0xABCD) := by decide
/-- Type 4, module id 10, event id 33, payload 0x0102 (L2-E1). -/
theorem decode_enc_ge : decodeTableWord 32 0b0100_001010_100001_0000000100000010 = some (.encGe 10 33 0x0102) := by decide
/-- Type 5 is unassigned (30_encoding.md R71). -/
theorem decode_unassigned : decodeTableWord 32 0x50000000 = none := by decide

theorem decode_append : decodeTableWord 3 0b000 = some (.append 0 false 0) := by decide
theorem decode_log_fe : decodeTableWord 3 0b001 = some (.logFe 0 0 0 0) := by decide
theorem decode_log_fx : decodeTableWord 3 0b010 = some (.logFx 0 0 0 0) := by decide
theorem decode_log_le : decodeTableWord 3 0b011 = some (.logLe 0 0 0 0 0) := by decide
theorem decode_log_ge : decodeTableWord 3 0b100 = some (.logGe 0 0 0 0 0) := by decide
theorem decode_dbg_rd_slot : decodeTableWord 8 0b101 = some (.dbgRdSlot 0) := by decide
theorem decode_dbg_rd_cursor : decodeTableWord 8 0b110 = some .dbgRdCursor := by decide
theorem decode_reserved : decodeTableWord 8 0b111 = some .reserved := by decide

/-- The record of P1's request 2, `011, main, u0, v=2, eid=5, payload=0xABCD`, in log entry 14's bytes. -/
theorem decode_record : decode Config.default .request [3, 0, 0, 0, 2, 0, 0, 0, 5, 0, 0, 0, 0xCD, 0xAB, 0, 0] =
    .ok (.logLe 0 0 2 5 0xABCD, []) := by decide

/-- A big-endian build reads the bytes of L2-D the other way round. -/
theorem decode_big : decode { Config.default with endian := .big } .eventWord [0x30, 0xC5, 0xAB, 0xCD] =
    .ok (.encLe 3 5 0xABCD, []) := by decide

theorem decode_short : decode Config.default .eventWord [0x30, 0xC5, 0xAB] = .error .tooShort := by decide

/-! ## Fetching: the host's way in -/

theorem fetch_enc_fe : step (State.reset.withFetchWord 32 0x10000000) = exec (.encFe 0 0) State.reset := by rfl
theorem fetch_append : step (State.reset.withFetchWord 8 0) = exec (.append 0 false 0) State.reset := by rfl
theorem fetch_dbg_rd_slot : step (State.reset.withFetchWord 3 5) = exec (.dbgRdSlot 0) State.reset := by rfl
theorem fetch_reserved : step (State.reset.withFetchWord 8 7) = .refused .reservedSelector := by rfl

/-! ## The Encoder (L2-E1) -/

theorem test_enc_fe : (after (.encFe 3 0x12345678) State.reset).encOut = [0x10F45678] ∧
    (after (.encFe 1024 1) State.reset).encOut = [0x10000001] := by decide
theorem test_enc_fe_bleed : (after (.encFe 1023 0) State.reset).encOut = [0xFFC00000] ∧
    (after (.encFe 128 0) State.reset).encOut = [0x30000000] := by decide
theorem test_enc_fx : (after (.encFx 63 0x00ABCDEF) State.reset).encOut = [0x2FEBCDEF] := by decide
theorem test_enc_fx_bleed : (after (.encFx 64 0) State.reset).encOut = [0x30000000] := by decide
theorem test_enc_le : (after (.encLe 0 65 0x12345) State.reset).encOut = [0x30012345] ∧
    (after (.encLe 1 1 1) State.reset).encOut = [0x30410001] := by decide
theorem test_enc_le_ones : (after (.encLe 0xFFFFFFFF 0xFFFFFFFF 0xFFFFFFFF) State.reset).encOut = [0xFFFFFFFF] := by decide
theorem test_enc_ge : (after (.encGe 3 63 0x1FFFF) State.reset).encOut = [0x40FFFFFF] ∧
    (after (.encGe 5 0x40 0x10000) State.reset).encOut = [0x41400000] := by decide
theorem test_enc_ge_bleed : (after (.encGe 64 0 0) State.reset).encOut = [0x50000000] := by decide

/-! ## Requests (43_log_requests.md's examples, in a build of CFG_DEFAULT's units under NOMASK) -/

/-- L2-G. -/
theorem test_gate : [allowed 0 3, allowed 1 3, allowed 3 3, allowed 4 3, allowed 1 0, allowed (-1) 3] =
    [false, true, true, false, false, false] := by decide

theorem test_append : (after (.append 0 true 0x18) (at' (build 3 .nomask) 7 idle 0 [])).stack = busy (.read 0x18 7) := by decide
/-- L2-M, `main.CSE`. -/
theorem test_append_mask : (after (.append 0 true 0xA0) (at' (build 2 .mask) 0 idle 0 [])).maskLevel = 1 ∧
    (after (.append 0 true 0xA0) (at' (build 2 .mask) 0 idle 0 [])).stack = busy (.entered 0xA0) := by decide
theorem test_log_fe : (after (.logFe 0 0 1 0x12345678) (at' (build 3 .nomask) 0 idle 0 [])).stack = busy (.read 0x10F45678 0) := by decide
theorem test_log_fe_gate : (after (.logFe 0 0 3 0x12345678) (at' (build 3 .nomask) 0 idle 0 [])).stack = idle := by decide
theorem test_log_fx : (after (.logFx 0 0 2 0x12345678) (at' (build 3 .nomask) 0 idle 0 [])).stack = busy (.read 0x20F45678 0) := by decide
theorem test_log_le : (after (.logLe 0 0 1 5 0xABCD) (at' (build 3 .nomask) 0 idle 0 [])).stack = busy (.read 0x30C5ABCD 0) := by decide
/-- P1's request 3. -/
theorem test_log_le_gate : (after (.logLe 0 0 3 6 0x1111) (at' (build 3 .nomask) 0 idle 0 [])).stack = idle := by decide
theorem test_log_ge : (after (.logGe 0 0 2 63 0x1FFFF) (at' (build 3 .nomask) 0 idle 0 [])).stack = busy (.read 0x40FFFFFF 0) := by decide
/-- P1's request 4. -/
theorem test_log_ge_gate : (after (.logGe 0 0 0 1 0x2222) (at' (build 3 .nomask) 0 idle 0 [])).stack = idle := by decide

/-! ## Micro-steps, preemption, the debugger -/

/-- L2-W, the wrap: W, then C. -/
theorem test_w : (stepped (at' (build 3 .nomask) 7 (busy (.read 0x18 7)) 0 [.micro])).slot 7 = 0x18 := by decide
theorem test_c : (stepped (at' (build 3 .nomask) 7 (busy (.written 7)) 0 [.micro])).cursor = 0 := by decide
/-- P4: C writes from the index read, and so moves the cursor back from 2 to 1. -/
theorem test_c_back : (stepped (at' (build 2 .nomask) 2 (busy (.written 0)) 0 [.micro])).cursor = 1 := by decide
/-- P5: `nmi.CSE` saves 1 and keeps the mask level 1; R117's nesting: CSX restores 1 and not 0. -/
theorem test_cse_nested : (after (.append 2 true 0xE0) (at' (build 2 .mask) 0 (⟨2, .idle, 0⟩ :: busy (.read 0xA0 0)) 1 [])).stack =
    ⟨2, .entered 0xE0, 1⟩ :: busy (.read 0xA0 0) := by decide
theorem test_csx_nested : (stepped (at' (build 2 .mask) 1 [⟨2, .committed, 1⟩, ⟨0, .read 0xA0 0, 0⟩] 1 [.micro])).maskLevel = 1 := by decide
/-- P3: `push irq1` is held off inside the critical section; P5: `push nmi` is not. -/
theorem test_push_masked : (stepped (at' (build 2 .mask) 0 (busy (.entered 0xA0)) 1 [.push 1])).contexts = [0] ∧
    (stepped (at' (build 2 .mask) 0 (busy (.entered 0xA0)) 1 [.push 2])).contexts = [0, 2] := by decide
theorem test_pop : (stepped (at' (build 2 .nomask) 1 (⟨1, .idle, 0⟩ :: busy (.read 0xA0 0)) 0 [.pop 1])).stack = busy (.read 0xA0 0) := by decide

/-- L2-D, mid-append: the newest word sits at the cursor. -/
theorem test_dbg_rd_slot : (after (.dbgRdSlot 0) (stepped (at' (build 2 .mask) 0 (busy (.read 0xA0 0)) 1 [.micro]))).dbgOut = [0xA0] := by decide
theorem test_dbg_rd_cursor : (after .dbgRdCursor (stepped (at' (build 2 .mask) 0 (busy (.read 0xA0 0)) 1 [.micro]))).dbgOut = [0] := by decide
/-- P6 and L2-X: refused in a disabled build. -/
theorem test_dbg_off : exec .dbgRdCursor (State.resetOf (off 2)) = .refused .debugDisabled := by rfl
/-- L2-D's and L2-X's refusals: width, alignment, the address after the last slot. -/
theorem test_mem_read : step { State.reset with inputs := [.memRead 0x20000000 2] } = .refused .debugAccess ∧
    step { State.reset with inputs := [.memRead 0x20000002 4] } = .refused .debugAccess ∧
    step (at' (build 2 .mask) 0 idle 0 [.memRead 0x20000010 4]) = .refused .debugAccess := ⟨rfl, rfl, rfl⟩
/-- L2-D's byte view of `0x30C5ABCD`. -/
theorem test_byte_view : wordBytes .little 0x30C5ABCD = [0xCD, 0xAB, 0xC5, 0x30] ∧
    wordBytes .big 0x30C5ABCD = [0x30, 0xC5, 0xAB, 0xCD] := by decide

/-! ## Witnesses: for every statement with hypotheses, a state and operands that meet them together

`∃ t, step s = .next t` is shown by `⟨_, rfl⟩`: the kernel runs the step. -/

/-- The invariant of a concrete state, from its five parts (inputs do not matter to it). -/
theorem inv_of {s : State} (h1 : s.cfg.Wf) (h2 : s.StackInv) (h3 : s.MaskInv) (h4 : s.StorageInv) (h5 : s.DisabledInv) :
    s.Inv := ⟨h1, h2, h3, h4, h5⟩

/-- `main` Idle, the cursor at the last slot, N = 8. -/
def last (p : Policy) (l : List Input) : State := at' (build 3 p) 7 idle 0 l
/-- N = 1: the cursor has no bits (R23). -/
def single (p : Policy) (l : List Input) : State := at' (build 0 p) 0 idle 0 l
/-- `main` in a phase of an append under MASK, N = 4 (L2-M). -/
def inMask (ph : Phase) (l : List Input) : State := at' (build 2 .mask) 3 (busy ph) 1 l
/-- `main` in a phase of an append under NOMASK, N = 4. -/
def inNomask (ph : Phase) (l : List Input) : State := at' (build 2 .nomask) 3 (busy ph) 0 l
/-- `irq1` Idle above `main`, whose append is in flight. -/
def above (l : List Input) : State := at' (build 2 .nomask) 3 (⟨1, .idle, 0⟩ :: busy (.read 0xA0 3)) 0 l

theorem last_inv_nomask (l : List Input) : (last .nomask l).Inv :=
  (inv_of (by decide) (by decide) rfl (by decide) (by decide) : (last .nomask []).Inv)
theorem last_inv_mask (l : List Input) : (last .mask l).Inv :=
  (inv_of (by decide) (by decide) rfl (by decide) (by decide) : (last .mask []).Inv)
theorem single_inv_nomask (l : List Input) : (single .nomask l).Inv :=
  (inv_of (by decide) (by decide) rfl (by decide) (by decide) : (single .nomask []).Inv)
theorem single_inv_mask (l : List Input) : (single .mask l).Inv :=
  (inv_of (by decide) (by decide) rfl (by decide) (by decide) : (single .mask []).Inv)
theorem inMask_inv_entered (l : List Input) : (inMask (.entered 5) l).Inv :=
  (inv_of (by decide) (by decide) rfl (by decide) (by decide) : (inMask (.entered 5) []).Inv)
theorem inMask_inv_read (l : List Input) : (inMask (.read 0xA0 3) l).Inv :=
  (inv_of (by decide) (by decide) rfl (by decide) (by decide) : (inMask (.read 0xA0 3) []).Inv)
theorem inMask_inv_written (l : List Input) : (inMask (.written 3) l).Inv :=
  (inv_of (by decide) (by decide) rfl (by decide) (by decide) : (inMask (.written 3) []).Inv)
theorem inMask_inv_committed (l : List Input) : (inMask .committed l).Inv :=
  (inv_of (by decide) (by decide) rfl (by decide) (by decide) : (inMask .committed []).Inv)
theorem inNomask_inv_read (l : List Input) : (inNomask (.read 0xA0 3) l).Inv :=
  (inv_of (by decide) (by decide) rfl (by decide) (by decide) : (inNomask (.read 0xA0 3) []).Inv)
theorem inNomask_inv_written (l : List Input) : (inNomask (.written 3) l).Inv :=
  (inv_of (by decide) (by decide) rfl (by decide) (by decide) : (inNomask (.written 3) []).Inv)
theorem off_inv (l : List Input) : (at' (off 2) 0 idle 0 l).Inv :=
  (inv_of (by decide) (by decide) rfl (by decide) (by decide) : (at' (off 2) 0 idle 0 []).Inv)

/-! ### Reset, steps, encodings -/

theorem witness_reset : (inMask (.written 3) [.reset]).inputs = .reset :: [] := rfl
theorem witness_step_call : (last .mask [.call .dbgRdCursor]).inputs = .call .dbgRdCursor :: [] := rfl
theorem witness_step_record : (last .mask [.record [6, 0, 0, 0, 0, 0, 0, 0, 0, 0, 0, 0, 0, 0, 0, 0, 9]]).inputs =
      .record [6, 0, 0, 0, 0, 0, 0, 0, 0, 0, 0, 0, 0, 0, 0, 0, 9] :: [] ∧
    decode (build 3 .mask) .request [6, 0, 0, 0, 0, 0, 0, 0, 0, 0, 0, 0, 0, 0, 0, 0, 9] = .ok (.dbgRdCursor, [9]) :=
  ⟨rfl, by decide⟩
theorem witness_step_event : (last .mask [.event [0xCD, 0xAB, 0xC5, 0x30]]).inputs = .event [0xCD, 0xAB, 0xC5, 0x30] :: [] ∧
    decode (build 3 .mask) .eventWord [0xCD, 0xAB, 0xC5, 0x30] = .ok (.encLe 3 5 0xABCD, []) := ⟨rfl, by decide⟩
theorem witness_step_table : decode Config.default (tableFormat 32) (tableBytes Config.default 32 0x4FFFFFFF) =
      .ok (.encGe 63 63 0xFFFF, []) ∧
    decode Config.default (tableFormat 3) (tableBytes Config.default 3 7) = .ok (.reserved, []) := by decide
theorem witness_step_free : State.reset.inputs = [] := rfl

theorem witness_encode : Config.default.Wf ∧ (Instr.encFe 63 0x3FFFFF).wf Config.default = true ∧
    (Instr.encGe 63 63 0xFFFF).wf Config.default = true ∧ (Instr.append 2 true 0xFFFFFFFF).wf Config.default = true ∧
    (Instr.logLe 2 1 (-2147483648) 0xFFFFFFFF 0xFFFFFFFF).wf Config.default = true ∧
    (Instr.dbgRdSlot 1023).wf Config.default = true ∧ Instr.reserved.wf Config.default = true := by decide
theorem witness_encode_single : (build 0 .nomask).Wf ∧ (Instr.dbgRdSlot 0).wf (build 0 .nomask) = true := by decide
theorem witness_event_word : decodeEvent Config.default 0x1FFFFFFF = .ok (.encFe 63 0x3FFFFF) ∧
    decodeEvent Config.default 0x20000000 = .ok (.encFx 0 0) ∧ decodeEvent Config.default 0x3FFFFFFF = .ok (.encLe 63 63 0xFFFF) ∧
    decodeEvent Config.default 0x40000000 = .ok (.encGe 0 0 0) := by decide
theorem witness_selector : (List.replicate 15 (0 : Byte)).length = 15 ∧ (0xFF : Byte).extractLsb' 0 3 = 7#3 ∧
    (last .mask [.record (0xFF :: List.replicate 15 0)]).inputs = .record (0xFF :: List.replicate 15 0) :: [] :=
  ⟨rfl, rfl, rfl⟩
theorem witness_round_trip : (63 : Word).toNat ≤ 63 ∧ (0xFFFF : Word).toNat ≤ 65535 := by decide
theorem witness_types : Config.default.typeFe ≠ 0 ∧ Config.default.typeFx ≠ 0 ∧ Config.default.typeLe ≠ 0 ∧
    Config.default.typeGe ≠ 0 := by decide

/-! ### Requests -/

theorem witness_append : (last .mask []).cfg.enable = true ∧ (last .mask []).ready 0 ∧
    (last .nomask []).cfg.enable = true ∧ (last .nomask []).ready 0 ∧ (single .nomask []).ready 0 ∧
    (single .mask []).cfg.enable = true ∧ (above []).ready 1 := by decide
theorem witness_log : (last .mask []).cfg.enable = true ∧ (last .mask []).ready 0 ∧
    (last .mask []).cfg.units[1]? = some ⟨10, 3⟩ ∧ (0 : Int) < 3 ∧ (3 : Int) ≤ 3 ∧ (0 : Int) < 1 ∧ (1 : Int) ≤ 3 := by decide
theorem witness_skip : (last .mask []).cfg.units[1]? = some ⟨10, 3⟩ ∧ ¬((0 : Int) < 0 ∧ (0 : Int) ≤ 3) ∧
    ¬((0 : Int) < 4 ∧ (4 : Int) ≤ 3) := by decide
theorem witness_disabled : (at' (off 2) 0 idle 0 [.push 2]).Inv ∧ (off 2).enable = false ∧
    ∃ t, step (at' (off 2) 0 idle 0 [.push 2]) = .next t := ⟨off_inv _, rfl, _, rfl⟩
theorem witness_request_frame : isRequest (.append 0 true 5) = true ∧
    (∃ t, exec (.append 0 true 5) (last .mask []) = .next t) ∧ (∃ t, exec (.append 0 true 5) (last .nomask []) = .next t) ∧
    ∃ t, exec (.logGe 0 1 4 1 1) (last .nomask []) = .next t := ⟨rfl, ⟨_, rfl⟩, ⟨_, rfl⟩, ⟨_, rfl⟩⟩
theorem witness_asks_none : isRequest (.logGe 0 1 4 1 1) = true ∧ appendAsked (build 3 .mask) (.logGe 0 1 4 1 1) = none := by decide
theorem witness_refusals : exec .reserved (last .mask []) = .refused .reservedSelector ∧
    exec (.dbgRdSlot 0) (at' (off 2) 0 idle 0 []) = .refused .debugDisabled ∧
    exec (.dbgRdSlot 8) (last .mask []) = .refused .noSuchSlot ∧
    exec (.logFe 0 2 1 0) (last .mask []) = .refused .noSuchUnit ∧
    exec (.append 1 true 0) (last .mask []) = .refused .notRunning ∧
    exec (.append 0 true 0) (inMask .committed []) = .refused .appendInFlight := ⟨rfl, rfl, rfl, rfl, rfl, rfl⟩

/-- What makes each refusal, at its boundary. -/
theorem witness_refused : (build 3 .mask).n ≤ 8 ∧ (build 3 .mask).units.length ≤ 2 ∧
    appendAsked (build 3 .mask) (.append 1 true 0) = some (1, 0) ∧ (last .mask []).running 1 = false ∧
    appendAsked (build 2 .nomask) (.append 0 true 0) = some (0, 0) ∧ (inNomask (.written 3) []).running 0 = true ∧
    (inNomask (.written 3) []).phaseOf 0 ≠ .idle := by decide

/-! ### Micro-steps -/

theorem witness_r : (inMask (.entered 5) [.micro]).inputs = .micro :: [] ∧ (inMask (.entered 5) [.micro]).cfg.policy = .mask ∧
    (inMask (.entered 5) [.micro]).stack = ⟨0, .entered 5, 0⟩ :: [] ∧ (last .nomask []).cfg.enable = true ∧
    (last .nomask []).cfg.policy = .nomask ∧ (last .nomask []).stack = ⟨0, .idle, 0⟩ :: [] := ⟨rfl, rfl, rfl, rfl, rfl, rfl⟩
theorem witness_w : (inMask (.read 0xA0 3) [.micro]).inputs = .micro :: [] ∧
    (inMask (.read 0xA0 3) [.micro]).stack = ⟨0, .read 0xA0 3, 0⟩ :: [] ∧ (inMask (.read 0xA0 3) [.micro]).Inv :=
  ⟨rfl, rfl, inMask_inv_read _⟩
theorem witness_c : (inMask (.written 3) [.micro]).inputs = .micro :: [] ∧ (inMask (.written 3) [.micro]).cfg.policy = .mask ∧
    (inMask (.written 3) [.micro]).stack = ⟨0, .written 3, 0⟩ :: [] ∧ (inNomask (.written 3) [.micro]).inputs = .micro :: [] ∧
    (inNomask (.written 3) [.micro]).cfg.policy = .nomask ∧ (inNomask (.written 3) [.micro]).stack = ⟨0, .written 3, 0⟩ :: [] :=
  ⟨rfl, rfl, rfl, rfl, rfl, rfl⟩
theorem witness_cse : (last .mask []).cfg.enable = true ∧ (last .mask []).cfg.policy = .mask ∧
    (last .mask []).stack = ⟨0, .idle, 0⟩ :: [] := ⟨rfl, rfl, rfl⟩
theorem witness_csx : (inMask .committed [.micro]).inputs = .micro :: [] ∧ (inMask .committed [.micro]).cfg.policy = .mask ∧
    (inMask .committed [.micro]).stack = ⟨0, .committed, 0⟩ :: [] := ⟨rfl, rfl, rfl⟩
theorem witness_in_flight_mask : (inMask (.entered 5) [.micro]).Inv ∧ (inMask (.read 0xA0 3) [.micro]).Inv ∧
    (inMask (.written 3) [.micro]).Inv ∧ (inMask .committed [.micro]).Inv ∧
    (inMask .committed [.micro]).stack = ⟨0, .committed, 0⟩ :: [] ∧ (inMask .committed [.micro]).inputs = .micro :: [] ∧
    Phase.committed ≠ .idle :=
  ⟨inMask_inv_entered _, inMask_inv_read _, inMask_inv_written _, inMask_inv_committed _, rfl, rfl, by decide⟩
theorem witness_in_flight_nomask : (inNomask (.read 0xA0 3) [.micro]).Inv ∧ (inNomask (.written 3) [.micro]).Inv :=
  ⟨inNomask_inv_read _, inNomask_inv_written _⟩

/-! ### Preemption -/

/-- At the boundary: `nmi` has priority 3, `irq1` 1, just above `main`'s 0 and the mask level 0. -/
theorem witness_push : (inNomask (.read 0xA0 3) [.push 1]).inputs = .push 1 :: [] ∧
    1 < (inNomask (.read 0xA0 3) [.push 1]).cfg.prios.length ∧ 1 ∉ (inNomask (.read 0xA0 3) [.push 1]).contexts ∧
    (build 2 .nomask).prio 0 < (build 2 .nomask).prio 1 ∧ (inNomask (.read 0xA0 3) [.push 1]).maskLevel < (build 2 .nomask).prio 1 := by
  decide
theorem witness_pop : (above [.pop 1]).inputs = .pop 1 :: [] ∧ (above [.pop 1]).stack = ⟨1, .idle, 0⟩ :: busy (.read 0xA0 3) ∧
    1 ≠ mainCtx := ⟨rfl, rfl, by decide⟩
/-- Not enabled: a context that does not exist, one on the stack, one of a priority that is not above, one masked. -/
theorem witness_push_not : (above [.push 3]).cfg.prios.length ≤ 3 ∧ 0 ∈ (above [.push 0]).contexts ∧
    (build 2 .nomask).prio 1 ≤ (build 2 .nomask).prio 1 ∧ (build 2 .mask).prio 1 ≤ (inMask .committed [.push 1]).maskLevel := by decide
theorem witness_pop_not : (last .mask [.pop 0]).stack = ⟨0, .idle, 0⟩ :: [] ∧ 0 = mainCtx ∧ (above [.pop 2]).stack =
    ⟨1, .idle, 0⟩ :: busy (.read 0xA0 3) ∧ 1 ≠ 2 := ⟨rfl, rfl, rfl, by decide⟩
theorem witness_micro_not : (last .mask [.micro]).inputs = .micro :: [] ∧ (last .mask [.micro]).stack = ⟨0, .idle, 0⟩ :: [] := ⟨rfl, rfl⟩
theorem witness_critical : (inMask (.written 3) [.push 1]).Inv ∧ (inMask (.written 3) [.push 1]).cfg.policy = .mask ∧
    ⟨0, .written 3, 0⟩ ∈ (inMask (.written 3) [.push 1]).stack ∧ Phase.written 3 ≠ .idle ∧
    (build 2 .mask).prio 1 ≤ (build 2 .mask).maskCeiling ∧ (inMask (.written 3) [.push 1]).inputs = .push 1 :: [] :=
  ⟨inMask_inv_written _, rfl, by decide, by decide, by decide, rfl⟩

/-! ### Whole-machine rules -/

theorem witness_wf : Config.default.Wf ∧ (build 0 .nomask).Wf ∧ (off 2).Wf := by decide
/-- A build of K = 29 has its cursor word in the 32-bit view; a cursor word beyond it is no legal build (R33). -/
theorem witness_wf_cursor : { Config.small 29 with storageBase := 0, cursorAddr := 0xFFFFFFFC }.Wf ∧
    ¬ { Config.small 29 with storageBase := 0, cursorAddr := 0x100000000 }.Wf := by decide
/-- The largest capacity of R7, whose storage fills the 32-bit space (log entry 5). -/
theorem witness_wf_largest : { Config.small 30 with storageBase := 0, cursorAddr := 0x100000000 }.Wf := by decide
theorem witness_step_inv : (inMask (.written 3) [.micro]).Inv ∧ ∃ t, step (inMask (.written 3) [.micro]) = .next t :=
  ⟨inMask_inv_written _, _, rfl⟩
theorem witness_only_w : (∃ t, step (inMask (.read 0xA0 3) [.micro]) = .next t ∧ t.mem.readByte 0x2000000C = 0xA0) ∧
    (inMask (.read 0xA0 3) [.micro]).nextInput ≠ .reset ∧ (inMask (.read 0xA0 3) [.micro]).mem.readByte 0x2000000C ≠ 0xA0 :=
  ⟨⟨_, rfl, by decide⟩, by decide, by decide⟩
theorem witness_only_c : (∃ t, step (inMask (.written 3) [.micro]) = .next t ∧ t.cursor ≠ (inMask (.written 3) [.micro]).cursor) ∧
    (inMask (.written 3) [.micro]).nextInput ≠ .reset := ⟨⟨_, rfl, by decide⟩, by decide⟩
theorem witness_only_cse : (∃ t, step (last .mask [.call (.append 0 true 5)]) = .next t ∧ t.maskLevel ≠ 0) ∧
    (last .mask [.call (.append 0 true 5)]).nextInput ≠ .reset := ⟨⟨_, rfl, by decide⟩, by decide⟩
theorem witness_only_csx : (∃ t, step (inMask .committed [.micro]) = .next t ∧ t.maskLevel ≠ 1) ∧
    (inMask .committed [.micro]).nextInput ≠ .reset := ⟨⟨_, rfl, by decide⟩, by decide⟩
theorem witness_contexts : (∃ t, step (last .mask [.push 1]) = .next t ∧ t.contexts ≠ [0]) ∧
    (∃ t, step (above [.pop 1]) = .next t ∧ t.contexts ≠ [0, 1]) ∧ ∃ t, step (above [.reset]) = .next t ∧ t.contexts ≠ [0, 1] :=
  ⟨⟨_, rfl, by decide⟩, ⟨_, rfl, by decide⟩, ⟨_, rfl, by decide⟩⟩
theorem witness_mask_guarantee : (last .mask [.call (.append 0 true 5)]).Inv ∧
    soleFlight (build 3 .mask) (last .mask []).cursor (last .mask []).stack = true ∧
    (∀ i c w, presented (build 3 .mask) (.call (.append 0 true 5)) = some i → appendAsked (build 3 .mask) i = some (c, w) →
      (build 3 .mask).prio c ≤ (build 3 .mask).maskCeiling) ∧
    (∃ t, step (last .mask [.call (.append 0 true 5)]) = .next t) ∧ (last .mask [.call (.append 0 true 5)]).nextInput ≠ .reset := by
  refine ⟨last_inv_mask _, by decide, ?_, ⟨_, rfl⟩, by decide⟩
  intro i c w hi ha
  cases hi
  cases ha
  decide
theorem witness_mask_guarantee_w : (inMask (.read 0xA0 3) [.micro]).Inv ∧
    soleFlight (build 2 .mask) 3 (inMask (.read 0xA0 3) [.micro]).stack = true := ⟨inMask_inv_read _, by decide⟩

/-! ### Runs -/

theorem witness_sequential : (last .nomask (sequentialInputs .nomask 0 [1, 2, 3])).Inv ∧
    (last .nomask []).cfg.enable = true ∧ (last .nomask []).ready 0 ∧
    (last .nomask (sequentialInputs .nomask 0 [1, 2, 3])).inputs = sequentialInputs .nomask 0 [1, 2, 3] :=
  ⟨last_inv_nomask _, rfl, by decide, rfl⟩
/-- N = 1 and two words: the first is overwritten, `k = 1` is the boundary of the second clause. -/
theorem witness_sequential_single : (single .mask (sequentialInputs .mask 0 [1, 2])).Inv ∧ (single .mask []).ready 0 ∧
    ([1, 2] : List Word)[1]? = some 2 ∧ ([1, 2] : List Word).length ≤ 1 + (build 0 .mask).n := ⟨single_inv_mask _, by decide, rfl, by decide⟩
theorem witness_sequential_untouched : 0 < (build 1 .mask).n ∧ ∀ k, k < ([9] : List Word).length → (1 + k) % (build 1 .mask).n ≠ 0 := by decide
theorem witness_sequential_reset : (build 3 .mask).Wf ∧ (build 3 .mask).enable = true ∧
    ([1, 2] : List Word).length ≤ 2 ∧ 2 < (build 3 .mask).n := by decide
theorem witness_preemption : (last .nomask []).Inv ∧ (last .nomask []).cfg.policy = .nomask ∧ (last .nomask []).cfg.enable = true ∧
    (last .nomask []).ready 0 ∧ 1 < (last .nomask []).cfg.prios.length ∧ 1 ∉ (last .nomask []).contexts ∧
    (build 3 .nomask).prio 0 < (build 3 .nomask).prio 1 := ⟨last_inv_nomask _, by decide⟩
theorem witness_preemption_single : (single .nomask []).Inv ∧ (single .nomask []).ready 0 ∧
    1 ∉ (single .nomask []).contexts := ⟨single_inv_nomask _, by decide⟩
/-- As in P4, two contexts preempt one after the other; `irq1` makes two appends; `k = 1` is the first word that stays. -/
theorem witness_repeated : MayPreempt (last .nomask []) 0 [(1, [1, 2]), (2, [3])] ∧
    (visitWords [(1, [1, 2]), (2, [3])])[1]? = some 2 ∧
    (visitWords [(1, [1, 2]), (2, [3])]).length ≤ 1 + (build 3 .nomask).n ∧ 1 % (build 3 .nomask).n ≠ 0 := by decide
theorem witness_repeated_none : MayPreempt (last .nomask []) 0 [] := by decide

/-- `main` has read the cursor; `irq1` preempts it and returns; then `main` goes on for ever. -/
def fairInput : Nat → Input
  | 0 => .push 1
  | 1 => .pop 1
  | _ + 2 => .micro

/-- The run of those choices. -/
def fairRun : Nat → State
  | 0 => inNomask (.read 0xA0 3) []
  | n + 1 => stepped ((fairRun n).present (fairInput n))

theorem fairRun_settles (n : Nat) : fairRun (n + 4) = fairRun 4 := by
  induction n with
  | zero => rfl
  | succ n ih =>
    have : fairRun (n + 4 + 1) = stepped ((fairRun (n + 4)).present .micro) := rfl
    rw [show n + 1 + 4 = n + 4 + 1 by omega, this, ih]
    rfl

theorem fairRun_runs (n : Nat) : step ((fairRun n).present (fairInput n)) = .next (fairRun (n + 1)) := by
  match n with
  | 0 => rfl
  | 1 => rfl
  | 2 => rfl
  | 3 => rfl
  | k + 4 =>
    show step ((fairRun (k + 4)).present .micro) = .next (fairRun (k + 1 + 4))
    rw [fairRun_settles k, fairRun_settles (k + 1)]
    rfl

theorem fairRun_contexts (n : Nat) : (fairRun (n + 2)).contexts = [0] := by
  match n with
  | 0 => decide
  | 1 => decide
  | k + 2 =>
    rw [show k + 2 + 2 = k + 4 by omega, fairRun_settles]
    decide

theorem fairRun_fair : Fair fairInput fairRun := by
  refine ⟨fun n d hd _ => ⟨n + 2, by omega, by rw [fairRun_contexts]; simpa using hd⟩, fun n c hr hp => ?_⟩
  match n with
  | 0 => exact ⟨2, by omega, .inr ⟨rfl, hr⟩⟩
  | 1 =>
    obtain rfl : 1 = c := by simpa using (show (1 == c) = true from hr)
    exact absurd rfl hp
  | 2 => exact ⟨2, by omega, .inr ⟨rfl, hr⟩⟩
  | 3 => exact ⟨3, by omega, .inr ⟨rfl, hr⟩⟩
  | k + 4 =>
    rw [fairRun_settles] at hr hp
    obtain rfl : 0 = c := by simpa using (show (0 == c) = true from hr)
    exact absurd rfl hp

/-- A fair run with an append in flight at its start. -/
theorem witness_fair : (fairRun 0).Inv ∧ Run fairInput fairRun ∧ Fair fairInput fairRun ∧ (fairRun 0).phaseOf 0 ≠ .idle :=
  ⟨inNomask_inv_read _, fun _ k _ => fairRun_runs k, fairRun_fair, by decide⟩
/-- Between R and W, with a preemption in between, `main` on top again. -/
theorem witness_keeps_index_read : RunTo fairInput fairRun 2 ∧ (∀ k, k < 2 → fairInput k ≠ .reset) ∧
    (fairRun 0).phaseOf 0 = .read 0xA0 3 ∧ (∀ k, k ≤ 2 → (fairRun k).phaseOf 0 ≠ .idle) ∧ (fairRun 2).running 0 = true :=
  ⟨fun k _ => fairRun_runs k, by decide, by decide, by decide, by decide⟩
/-- Between W and C. -/
theorem witness_keeps_index_written : RunTo fairInput fairRun 3 ∧ (∀ k, k < 3 → fairInput k ≠ .reset) ∧
    (∀ k, k ≤ 3 → (fairRun k).phaseOf 0 ≠ .idle) ∧ (fairRun 3).phaseOf 0 = .written 3 ∧ (fairRun 3).running 0 = true :=
  ⟨fun k _ => fairRun_runs k, by decide, by decide, by decide, by decide⟩
/-- A phase moves, by the context's own micro-step. -/
theorem witness_phase_moves : (∃ t, step (inNomask (.read 0xA0 3) [.micro]) = .next t ∧ t.phaseOf 0 ≠ .read 0xA0 3) ∧
    (inNomask (.read 0xA0 3) [.micro]).nextInput ≠ .reset ∧ (inNomask (.read 0xA0 3) [.micro]).phaseOf 0 ≠ .idle :=
  ⟨⟨_, rfl, by decide⟩, by decide, by decide⟩

/-! ### The debugger -/

theorem witness_debugger : (last .mask []).cfg.enable = true ∧ 7 < (last .mask []).cfg.n ∧ (last .mask []).Inv :=
  ⟨rfl, by decide, last_inv_mask _⟩
/-- The first and last slot, the cursor, and the addresses on either side. -/
theorem witness_mem_read : (build 3 .mask).Wf ∧ (build 3 .mask).enable = true ∧ (build 3 .mask).slotAddr 0 = 0x20000000 ∧
    (build 3 .mask).slotAddr 7 = 0x2000001C ∧ (build 3 .mask).cursorAddr = 0x20001000 ∧
    (∀ i, i < (build 3 .mask).n → (0x20000020 : Word).toNat ≠ (build 3 .mask).slotAddr i) ∧
    (0x20000020 : Word).toNat ≠ (build 3 .mask).cursorAddr ∧
    (off 2).Wf ∧ (off 2).enable = false := by decide
/-- The last byte of the last slot and of the cursor, and the first byte after each. -/
theorem witness_byte_view : (build 3 .mask).Wf ∧ 7 < (build 3 .mask).n ∧ (build 3 .mask).k < 30 ∧
    (0x2000001F : Word).toNat = (build 3 .mask).storageBase + 4 * 7 + 3 ∧
    (0x20001003 : Word).toNat = (build 3 .mask).cursorAddr + 3 ∧
    (build 3 .mask).storageBase + 4 * (build 3 .mask).n ≤ (0x20000020 : Word).toNat ∧
    (0x20000020 : Word).toNat < (build 3 .mask).cursorAddr ∧ (build 3 .mask).cursorAddr + 4 ≤ (0x20001004 : Word).toNat := by decide
theorem witness_newest : (inMask (.read 0xA0 3) [.micro, .call .dbgRdCursor, .call (.dbgRdSlot 3)]).Inv ∧
    (inMask (.read 0xA0 3) []).cfg.enable = true ∧ (inMask (.read 0xA0 3) []).cursor = 3 ∧
    (inMask (.read 0xA0 3) []).stack = ⟨0, .read 0xA0 3, 0⟩ :: [] := ⟨inMask_inv_read _, rfl, rfl, rfl⟩

end Sys2Proof.Tests
end

section
/-! PROOF. The round-trip law of the Encoder's words (41_encoder.md R96): the fields as numbers for all operands, then the
type for a module id in range, then the operands in range. -/

namespace Sys2Proof.Machine

/-! ## The fields as numbers -/

/-- A field truncated to its low bits is the operand mod the field's size. -/
theorem toNat_lowBits (n : Nat) (x : Word) : (x.extractLsb' 0 n).toNat = x.toNat % 2 ^ n := by
  rw [BitVec.extractLsb'_toNat, Nat.shiftRight_zero]

/-- R96, all operands: module id and identifier of a FunctionEnter or FunctionExit word. -/
theorem packIdent_toNat (ty : BitVec 4) (m f : Word) :
    (moduleOf (packIdent ty m f)).toNat = m.toNat % 64 ∧ (identOf (packIdent ty m f)).toNat = f.toNat % 4194304 := by
  obtain ⟨-, hm, hf⟩ := packIdent_fields ty m f
  exact ⟨hm ▸ toNat_lowBits 6 m, hf ▸ toNat_lowBits 22 f⟩

/-- R96, all operands: module id, event id and payload of a LocalEvent or GlobalEvent word. -/
theorem packEvent_toNat (ty : BitVec 4) (m e p : Word) :
    (moduleOf (packEvent ty m e p)).toNat = m.toNat % 64 ∧ (eventOf (packEvent ty m e p)).toNat = e.toNat % 64 ∧
      (payloadOf (packEvent ty m e p)).toNat = p.toNat % 65536 := by
  obtain ⟨-, hm, he, hp⟩ := packEvent_fields ty m e p
  exact ⟨hm ▸ toNat_lowBits 6 m, he ▸ toNat_lowBits 6 e, hp ▸ toNat_lowBits 16 p⟩

/-! ## The type field for a module id in range -/

/-- A module id in range has no bits to bleed into the type field (R91). -/
theorem moduleBleed_eq_zero {m : Word} (hm : m.toNat ≤ 63) : m.extractLsb' 6 4 = 0#4 := by
  apply BitVec.eq_of_toNat_eq
  rw [BitVec.extractLsb'_toNat, Nat.shiftRight_eq_div_pow, Nat.div_eq_of_lt (by omega)]
  rfl

theorem typeOf_packIdent {m : Word} (hm : m.toNat ≤ 63) (ty : BitVec 4) (f : Word) :
    typeOf (packIdent ty m f) = ty := by
  rw [(packIdent_fields ty m f).1, moduleBleed_eq_zero hm, BitVec.or_zero]

theorem typeOf_packEvent {m : Word} (hm : m.toNat ≤ 63) (ty : BitVec 4) (e p : Word) :
    typeOf (packEvent ty m e p) = ty := by
  rw [(packEvent_fields ty m e p).1, moduleBleed_eq_zero hm, BitVec.or_zero]

/-! ## The cases of R96, for any type code -/

/-- R96, first case: in range, an event word gives back its type code and its operands. -/
theorem packEvent_roundTrip (ty : BitVec 4) {m e p : Word} (hm : m.toNat ≤ 63) (he : e.toNat ≤ 63) (hp : p.toNat ≤ 65535) :
    typeOf (packEvent ty m e p) = ty ∧ (moduleOf (packEvent ty m e p)).toNat = m.toNat ∧
      (eventOf (packEvent ty m e p)).toNat = e.toNat ∧ (payloadOf (packEvent ty m e p)).toNat = p.toNat := by
  obtain ⟨hm', he', hp'⟩ := packEvent_toNat ty m e p
  exact ⟨typeOf_packEvent hm ty e p, by omega, by omega, by omega⟩

/-- R96, second case: for a module id in range, a function word gives back its type code, its module id and the
truncated identifier. -/
theorem packIdent_roundTrip (ty : BitVec 4) {m : Word} (hm : m.toNat ≤ 63) (f : Word) :
    typeOf (packIdent ty m f) = ty ∧ (moduleOf (packIdent ty m f)).toNat = m.toNat ∧
      (identOf (packIdent ty m f)).toNat = f.toNat % 4194304 := by
  obtain ⟨hm', hf'⟩ := packIdent_toNat ty m f
  exact ⟨typeOf_packIdent hm ty f, by omega, hf'⟩

/-- Settles O9: each of R96's cases holds of the two packing functions for any type code, so of the four words of every build. -/
theorem fieldsOfAnEncodedEventAreItsOperands : Obligations.FieldsOfAnEncodedEventAreItsOperands := by
  intro c
  refine ⟨fun m e p hm he hp => ?_, fun m f hm => ?_, fun m e p f => ?_⟩
  · exact ⟨packEvent_roundTrip c.typeLe hm he hp, packEvent_roundTrip c.typeGe hm he hp⟩
  · exact ⟨packIdent_roundTrip c.typeFe hm f, packIdent_roundTrip c.typeFx hm f⟩
  · obtain ⟨hmLe, heLe, hpLe⟩ := packEvent_toNat c.typeLe m e p
    obtain ⟨hmGe, heGe, hpGe⟩ := packEvent_toNat c.typeGe m e p
    exact ⟨heLe, hpLe, heGe, hpGe, hmLe, hmGe, (packIdent_toNat c.typeFe m f).1, (packIdent_toNat c.typeFx m f).1⟩

end Sys2Proof.Machine
end

section
/-! PROOF. The ring writer's micro-steps W, C and CSX as steps of the machine (42_ring_writer.md R112, R113, R117), and the
cursor's mask as a remainder (R125). -/

namespace Sys2Proof.Machine

/-! ## The step of a micro-step, by the phase of the running context -/

section
variable {s : State} {rest : List Input} {f : Frame} {r : List Frame} {p : Nat}

/-- W (R112): the word goes to slot `p`. -/
theorem step_micro_read {w : Word} (hi : s.inputs = .micro :: rest) (hs : s.stack = f :: r) (hp : f.phase = .read w p) :
    step s = .next { s with
      inputs := rest
      mem := s.mem.writeWord s.cfg.endian (s.cfg.slotAddr p) w
      stack := { f with phase := .written p } :: r } := by
  rw [step_micro hi, microStep_read (s := { s with inputs := rest }) hs hp,
    microW_cons (s := { s with inputs := rest }) hs]

/-- C (R113), under either policy: the cursor comes from `p` alone, by R125 as a mask. -/
theorem step_micro_written (hi : s.inputs = .micro :: rest) (hs : s.stack = f :: r) (hp : f.phase = .written p) :
    step s = .next { s with
      inputs := rest
      cursor := (p + 1) &&& (s.cfg.n - 1)
      stack := { f with phase := phaseAfterC s.cfg.policy } :: r } := by
  rw [step_micro hi, microStep_written (s := { s with inputs := rest }) hs hp,
    microC_cons (s := { s with inputs := rest }) hs, Nat.and_two_pow_sub_one_eq_mod]

/-- CSX (R117): the level saved comes back. -/
theorem step_micro_committed (hi : s.inputs = .micro :: rest) (hs : s.stack = f :: r) (hp : f.phase = .committed)
    (hm : s.cfg.policy = .mask) :
    step s = .next { s with inputs := rest, maskLevel := f.saved, stack := { f with phase := .idle } :: r } := by
  rw [step_micro hi, microStep_committed (s := { s with inputs := rest }) hs hp hm,
    microCsx_cons (s := { s with inputs := rest }) hs]

end

/-! ## The index read -/

/-- Under the invariant every phase on the stack is one the build's policy has, its index in bounds. -/
theorem phase_legal_of_inv {s : State} (hinv : s.Inv) {f : Frame} (hf : f ∈ s.stack) : f.phase.legal s.cfg = true := by
  obtain ⟨-, ⟨-, hframes, -⟩, -⟩ := hinv
  exact (hframes f hf).2

/-- R121: an index read at R is in bounds. -/
theorem read_index_lt {s : State} (hinv : s.Inv) {f : Frame} (hf : f ∈ s.stack) {w : Word} {p : Nat}
    (hp : f.phase = .read w p) : p < s.cfg.n := by
  have hlegal := phase_legal_of_inv hinv hf
  rw [hp] at hlegal
  exact of_decide_eq_true hlegal

/-! ## The obligations -/

/-- Settles O18: the memory W leaves is one word write at slot `p`, read back by its own law and framed by another. -/
theorem microStepWWritesTheSlot : Obligations.MicroStepWWritesTheSlot := by
  intro s rest f r w p hi hs hp
  refine ⟨_, step_micro_read hi hs hp, ?_, fun a ha => ?_, fun hinv => ?_⟩
  · exact readWord_writeWord_self _ _ _ _
  · exact readByte_writeWord_outside _ _ _ _ ha
  · exact read_index_lt hinv (f := f) (by simp [hs]) hp

/-- Settles O19: C's step holds under either policy, which chooses the phase it leaves and nothing else. -/
theorem microStepCWritesTheCursor : Obligations.MicroStepCWritesTheCursor := by
  intro s rest f r p hi hs hp
  have hstep := step_micro_written hi hs hp
  constructor
  · intro hmask
    rwa [hmask] at hstep
  · intro hnomask
    rwa [hnomask] at hstep

/-- Settles O21: the step from `Committed` under MASK is CSX. -/
theorem microStepCsxRestoresTheMask : Obligations.MicroStepCsxRestoresTheMask :=
  fun _ _ _ _ hi hm hs hp => step_micro_committed hi hs hp hm

/-- Settles O22: the mask of a power of two less one is its remainder, and C's write is that mask. -/
theorem cursorMaskIsTheRemainder : Obligations.CursorMaskIsTheRemainder :=
  ⟨fun k v => Nat.and_two_pow_sub_one_eq_mod v k, advanceFrom_cursor⟩

end Sys2Proof.Machine
end

section
/-! PROOF. A disabled build (43_log_requests.md R143): no operation asks for an append, so no step leaves the reset values. -/

namespace Sys2Proof.Machine

/-- What the invariant says of a disabled build's state (R143): the reset values, whatever contexts are on the stack. -/
abbrev State.Dormant (s : State) : Prop :=
  s.mem = [] ∧ s.cursor = 0 ∧ s.maskLevel = 0 ∧ ∀ f ∈ s.stack, f.phase = .idle

theorem dormant_of_inv {s : State} (hinv : s.Inv) (he : s.cfg.enable = false) : s.Dormant := by
  obtain ⟨-, -, -, -, hdisabled⟩ := hinv
  exact hdisabled he

/-! ## Operations of a disabled build -/

/-- The requests need ENABLE to ask for an append, and the other operations never do. -/
theorem appendAsked_disabled {c : Config} (he : c.enable = false) (i : Instr) : appendAsked c i = none := by
  cases i with
  | append => simp [appendAsked, he]
  | logFe _ u | logFx _ u | logLe _ u | logGe _ u => cases hu : c.units[u]? <;> simp [appendAsked, he, hu]
  | encFe | encFx | encLe | encGe | dbgRdSlot | dbgRdCursor | reserved => rfl

/-- R143, whatever the operands: with no append to issue, and the unit looked up only in an enabled build, `skip` is what
is left of a request. -/
theorem exec_request_disabled {i : Instr} (hi : isRequest i = true) {s : State} (he : s.cfg.enable = false) :
    exec i s = .next s := by
  rcases request_cases hi s with ⟨c, w, hasked, -⟩ | ⟨-, hskip⟩ | ⟨-, henabled, -⟩
  · rw [appendAsked_disabled he] at hasked
    cases hasked
  · exact hskip
  · rw [he] at henabled
    cases henabled

/-- R164 for `DBG_RD_SLOT`. -/
theorem exec_dbgRdSlot_disabled {s : State} (he : s.cfg.enable = false) (i : Nat) :
    exec (.dbgRdSlot i) s = .refused .debugDisabled := by
  simp [exec, execDbgRdSlot, he]

/-- R164 for `DBG_RD_CURSOR`. -/
theorem exec_dbgRdCursor_disabled {s : State} (he : s.cfg.enable = false) :
    exec .dbgRdCursor s = .refused .debugDisabled := by
  simp [exec, execDbgRdCursor, he]

/-! ## Steps of a disabled build -/

/-- With no append in flight, `micro` changes nothing. -/
theorem microStep_of_all_idle {s : State} (hidle : ∀ f ∈ s.stack, f.phase = .idle) : microStep s = s := by
  cases hs : s.stack with
  | nil => simp [microStep, hs]
  | cons f r => simp [microStep, hs, hidle f (by simp [hs])]

theorem push_dormant {s : State} (hs : s.Dormant) (d : Nat) : (s.push d).Dormant := by
  cases hp : s.pushEnabled d with
  | false => simpa [State.push, hp] using hs
  | true =>
    obtain ⟨hmem, hcursor, hmask, hidle⟩ := hs
    rw [push_enabled hp]
    exact ⟨hmem, hcursor, hmask, List.forall_mem_cons.mpr ⟨rfl, hidle⟩⟩

theorem pop_dormant {s : State} (hs : s.Dormant) (d : Nat) : (s.pop d).Dormant := by
  cases hp : s.popEnabled d with
  | false => simpa [State.pop, hp] using hs
  | true =>
    obtain ⟨hmem, hcursor, hmask, hidle⟩ := hs
    rw [pop_enabled hp]
    exact ⟨hmem, hcursor, hmask, fun f hf => hidle f (List.mem_of_mem_tail hf)⟩

theorem restart_dormant (s : State) : s.restart.Dormant := by simp [State.Dormant]

/-- A step of a disabled build keeps the reset values: the one choice that could leave them, an append, is never issued. -/
theorem step_dormant {s t : State} (he : s.cfg.enable = false) (hs : s.Dormant) (h : step s = .next t) : t.Dormant := by
  have hconsume : s.consume.Dormant := by simpa [State.Dormant] using hs
  rcases step_cases h with ⟨w, rfl⟩ | ⟨w, rfl⟩ | rfl | ⟨i, c, w, -, hasked, -⟩ | ⟨-, rfl⟩ | ⟨d, -, rfl⟩ | ⟨d, -, rfl⟩ |
    ⟨-, rfl⟩
  · exact hconsume
  · exact hconsume
  · exact hconsume
  · rw [appendAsked_disabled he] at hasked
    cases hasked
  · have ⟨_, _, _, hidle⟩ := hconsume
    rw [microStep_of_all_idle hidle]
    exact hconsume
  · exact push_dormant hconsume d
  · exact pop_dormant hconsume d
  · exact restart_dormant _

/-- A memory that lists nothing reads 0 in every slot (10_state.md R32). -/
theorem slot_of_mem_nil {s : State} (hmem : s.mem = []) (i : Nat) : s.slot i = 0 := by
  cases he : s.cfg.endian <;> simp [State.slot, hmem, he, Memory.readWord, Memory.readByte, Memory.unlisted, wordOfBytes]

/-! ## The obligation -/

/-- Settles O14: the five requests by `exec_request_disabled`, a step by `step_dormant` from the invariant's clause for
disabled builds, the reads by their refusals. -/
theorem disabledBuildSkipsEveryRequest : Obligations.DisabledBuildSkipsEveryRequest := by
  refine ⟨fun s c u r v a b he => ?_, fun s t hinv he h => ?_, fun s i he => ?_⟩
  · exact ⟨exec_request_disabled rfl he, exec_request_disabled rfl he, exec_request_disabled rfl he,
      exec_request_disabled rfl he, exec_request_disabled rfl he⟩
  · obtain ⟨hmem, hcursor, hmask, -⟩ := step_dormant he (dormant_of_inv hinv he) h
    exact ⟨slot_of_mem_nil hmem, hcursor, hmask⟩
  · exact ⟨exec_dbgRdSlot_disabled he i, exec_dbgRdCursor_disabled he⟩

end Sys2Proof.Machine
end

section
/-! PROOF. The debugger's two reads in an enabled build (44_debug_port.md R156, R157). -/

namespace Sys2Proof.Machine

/-! ## The reads -/

section
variable {s : State}

/-- R156: slot `i`, for an index below `N`. -/
theorem exec_dbgRdSlot_enabled (he : s.cfg.enable = true) {i : Nat} (hi : i < s.cfg.n) :
    exec (.dbgRdSlot i) s = .next (s.answerDebugger (s.slot i)) := by
  rw [exec, execDbgRdSlot, if_pos he, if_pos hi]

/-- R157: the cursor word. -/
theorem exec_dbgRdCursor_enabled (he : s.cfg.enable = true) :
    exec .dbgRdCursor s = .next (s.answerDebugger s.cursorWord) := by
  rw [exec, execDbgRdCursor, if_pos he]

/-! ## The cursor word -/

/-- The cursor is a value of `K` bits (10_state.md R23). -/
theorem cursor_lt_of_inv (hinv : s.Inv) : s.cursor < s.cfg.n := by
  obtain ⟨-, -, -, ⟨-, -, hcursor⟩, -⟩ := hinv
  exact hcursor

/-- R157: no bit of the cursor is lost in its 32-bit word, since the storage of `N` words lies in the 32-bit byte view
(20_memory.md R40). -/
theorem toNat_cursorWord (hinv : s.Inv) : s.cursorWord.toNat = s.cursor := by
  have hcursor := cursor_lt_of_inv hinv
  obtain ⟨⟨-, -, -, -, -, -, hstorage, -⟩, -⟩ := hinv
  rw [State.cursorWord, BitVec.toNat_ofNat, Nat.mod_eq_of_lt (by omega)]

end

/-! ## The obligation -/

/-- Settles O39: the two reads as equations; under the invariant the cursor word's value is the cursor, which is below `N`. -/
theorem debuggerReadsHandOverOneWord : Obligations.DebuggerReadsHandOverOneWord := by
  refine ⟨fun s i he hi => exec_dbgRdSlot_enabled he hi, fun s he => ?_⟩
  refine ⟨s.cursorWord, exec_dbgRdCursor_enabled he, rfl, fun hinv => ?_⟩
  have hword := toNat_cursorWord hinv
  exact ⟨hword, hword ▸ cursor_lt_of_inv hinv⟩

end Sys2Proof.Machine
end

section
/-! PROOF. Preemption and return (60_exceptions.md R170, R171): what a push and a pop do where they are enabled, and that a
change of the stack shows they were. -/

namespace Sys2Proof.Machine

/-! ## Two states whose stacks differ by the top frame -/

section
variable {s t : State} {f : Frame}

theorem contexts_eq_append_top (h : s.stack = f :: t.stack) : s.contexts = t.contexts ++ [f.ctx] :=
  contexts_cons s f t.stack h

/-- The frame put on or taken off the top says nothing of any other context's phase. -/
theorem phaseOf_eq_of_ne_top (h : s.stack = f :: t.stack) {c : Nat} (hc : c ≠ f.ctx) : s.phaseOf c = t.phaseOf c := by
  simp [State.phaseOf, h, hc.symm]

end

/-! ## The step of a push and of a pop -/

section
variable {s t : State} {rest : List Input} {d : Nat}

theorem step_push_enabled (hi : s.inputs = .push d :: rest) (he : s.pushEnabled d = true) :
    step s = .next { s with inputs := rest, stack := ⟨d, .idle, 0⟩ :: s.stack } := by
  rw [step_push hi, push_enabled (s := { s with inputs := rest }) he]

theorem step_pop_enabled (hi : s.inputs = .pop d :: rest) (he : s.popEnabled d = true) :
    step s = .next { s with inputs := rest, stack := s.stack.tail } := by
  rw [step_pop hi, pop_enabled (s := { s with inputs := rest }) he]

theorem step_push_not_enabled (hi : s.inputs = .push d :: rest) (he : ¬ s.pushEnabled d = true) :
    step s = .next { s with inputs := rest } :=
  (step_push hi).trans (congrArg _ (if_neg he))

theorem step_pop_not_enabled (hi : s.inputs = .pop d :: rest) (he : ¬ s.popEnabled d = true) :
    step s = .next { s with inputs := rest } :=
  (step_pop hi).trans (congrArg _ (if_neg he))

/-- A push that is held off leaves the stack as it was, so one that changes the contexts was enabled. -/
theorem pushEnabled_of_step_contexts_ne (hi : s.inputs = .push d :: rest) (h : step s = .next t)
    (hne : t.contexts ≠ s.contexts) : s.pushEnabled d = true := by
  by_contra hoff
  rw [step_push_not_enabled hi hoff] at h
  cases h
  exact hne rfl

/-- A pop that is not enabled leaves the stack as it was, so one that changes the contexts was enabled. -/
theorem popEnabled_of_step_contexts_ne (hi : s.inputs = .pop d :: rest) (h : step s = .next t)
    (hne : t.contexts ≠ s.contexts) : s.popEnabled d = true := by
  by_contra hoff
  rw [step_pop_not_enabled hi hoff] at h
  cases h
  exact hne rfl

/-- R170's conditions compare with a running context, so there is one. -/
theorem stack_cons_of_pushEnabled (he : s.pushEnabled d = true) : ∃ f r, s.stack = f :: r := by
  cases hs : s.stack with
  | nil => simp [State.pushEnabled, hs] at he
  | cons f r => exact ⟨f, r, rfl⟩

/-- R171's conditions are about the running context, so there is one. -/
theorem stack_cons_of_popEnabled (he : s.popEnabled d = true) : ∃ f r, s.stack = f :: r := by
  cases hs : s.stack with
  | nil => simp [State.popEnabled, hs] at he
  | cons f r => exact ⟨f, r, rfl⟩

end

/-! ## The obligations -/

/-- Settles O24: the state an enabled push answers has one more frame on top, and no other push changes the contexts. -/
theorem pushPreemptsTheRunningContext : Obligations.PushPreemptsTheRunningContext := by
  constructor
  · intro s rest f r d hi hs hd hoff hprio hmask
    have he : s.pushEnabled d = true := (pushEnabled_iff hs d).mpr ⟨hd, hoff, hprio, hmask⟩
    refine ⟨_, step_push_enabled hi he, ?_, ?_, fun c hc => ?_, rfl, rfl⟩
    · exact contexts_eq_append_top (f := ⟨d, .idle, 0⟩) rfl
    · exact phaseOf_top _ ⟨d, .idle, 0⟩ s.stack rfl
    · exact phaseOf_eq_of_ne_top (f := ⟨d, .idle, 0⟩) rfl hc
  · intro s t rest d hi h hne
    have he := pushEnabled_of_step_contexts_ne hi h hne
    obtain ⟨f, r, hs⟩ := stack_cons_of_pushEnabled he
    obtain ⟨hd, hoff, hprio, hmask⟩ := (pushEnabled_iff hs d).mp he
    exact ⟨hd, hoff, hmask, f, r, hs, hprio⟩

/-- Settles O25: the state an enabled pop answers has the top frame off, and no other pop changes the contexts. -/
theorem popReturnsToTheContextBelow : Obligations.PopReturnsToTheContextBelow := by
  constructor
  · intro s rest f r hi hs hmain hidle
    have he : s.popEnabled f.ctx = true := (popEnabled_iff hs f.ctx).mpr ⟨rfl, hmain, hidle⟩
    have hstep := step_pop_enabled hi he
    rw [hs, List.tail_cons] at hstep
    refine ⟨_, hstep, ?_, fun c hc => ?_, rfl⟩
    · exact contexts_eq_append_top hs
    · exact (phaseOf_eq_of_ne_top hs hc).symm
  · intro s t rest d hi h hne
    have he := popEnabled_of_step_contexts_ne hi h hne
    obtain ⟨f, r, hs⟩ := stack_cons_of_popEnabled he
    exact ⟨f, r, hs, (popEnabled_iff hs d).mp he⟩

end Sys2Proof.Machine
end

section
/-! PROOF. Reset (70_reset_and_hazards.md R190): the values of 10_state.md R32, from the four pieces of state they speak of. -/

namespace Sys2Proof.Machine

/-- With `MAIN` alone on the stack and no append of its own, every context is `Idle`: one off the stack is (60_exceptions.md
R177). -/
theorem phaseOf_of_main_alone {s : State} (hstack : s.stack = [⟨mainCtx, .idle, 0⟩]) (c : Nat) : s.phaseOf c = .idle := by
  obtain rfl | hc := eq_or_ne c mainCtx
  · exact phaseOf_top s ⟨mainCtx, .idle, 0⟩ [] hstack
  · simp [State.phaseOf, hstack, hc.symm]

/-- R32's values, from what the model holds in their place: a memory that lists nothing and a stack of one frame. -/
theorem atReset_of_fields {s : State} (hmem : s.mem = []) (hcursor : s.cursor = 0)
    (hstack : s.stack = [⟨mainCtx, .idle, 0⟩]) (hmask : s.maskLevel = 0) : s.AtReset :=
  ⟨fun i _ => slot_of_mem_nil hmem i, hcursor, phaseOf_of_main_alone hstack,
    contexts_cons s ⟨mainCtx, .idle, 0⟩ [] hstack, hmask⟩

theorem resetOf_atReset (c : Config) : (State.resetOf c).AtReset := atReset_of_fields rfl rfl rfl rfl

theorem restart_atReset (s : State) : s.restart.AtReset :=
  atReset_of_fields (restart_mem s) (restart_cursor s) (restart_stack s) (restart_maskLevel s)

/-- Settles O1: the state after reset of a build, and the state `step_reset` gives, have the reset values and keep the build. -/
theorem resetPutsEveryPieceAtItsResetValue : Obligations.ResetPutsEveryPieceAtItsResetValue :=
  ⟨fun c => ⟨resetOf_atReset c, rfl⟩, fun _ _ hinputs => ⟨_, step_reset hinputs, restart_atReset _, restart_cfg _⟩⟩

end Sys2Proof.Machine
end

section
/-! PROOF. Decoder and encoder (30_encoding.md): a record's bytes and an event word's are read back as they were laid out (R66, R74),
an event word is put together from its fields (R67), and selector `111` alone is reserved (R75). -/

namespace Sys2Proof.Machine

/-! ## Operands and the fields that hold them -/

/-- An operand that fits its field is what the field gives back, zero-extended. -/
theorem setWidth_lowBits {n : Nat} {x : Word} (hx : x.toNat < 2 ^ n) : (x.extractLsb' 0 n).setWidth 32 = x := by
  apply BitVec.eq_of_toNat_eq
  rw [BitVec.toNat_setWidth, toNat_lowBits, Nat.mod_eq_of_lt hx, Nat.mod_eq_of_lt x.isLt]

/-- A field of at most 32 bits, taken as an operand, is laid out as itself. -/
theorem lowBits_setWidth {n : Nat} (hn : n ≤ 32) (x : BitVec n) : (x.setWidth 32).extractLsb' 0 n = x := by
  refine eq_of_bits fun i hi => ?_
  simp [hi, show i < 32 by omega]

theorem toNat_field {n : Nat} (hn : n ≤ 32) (x : BitVec n) : (x.setWidth 32).toNat < 2 ^ n := by
  rw [BitVec.toNat_setWidth_of_le hn]
  exact x.isLt

/-- A verbosity that fits its field is what the field gives back (log entry 14). -/
theorem toInt_verbosity {v : Int} (hv : verbosityWf v) : (BitVec.ofInt 32 v).toInt = v := by
  obtain ⟨hlow, hhigh⟩ := hv
  rw [BitVec.toInt_ofInt, Int.bmod_eq_of_le (by omega) (by omega)]

/-! ## Event words -/

/-- The first four bytes of an event word's format are the word (R42, R67). -/
theorem decode_wordBytes (c : Config) (w : Word) (rest : List Byte) :
    decode c .eventWord (wordBytes c.endian w ++ rest) = (decodeEvent c w).map fun i => (i, rest) := by
  simp [decode, wordBytes, decodeEventBytes]

section
variable {c : Config} {w : Word}

theorem decodeEvent_fe (h : typeOf w = c.typeFe) :
    decodeEvent c w = .ok (.encFe ((moduleOf w).setWidth 32) ((identOf w).setWidth 32)) := by
  simp [decodeEvent, h]

theorem decodeEvent_fx (hfe : c.typeFx ≠ c.typeFe) (h : typeOf w = c.typeFx) :
    decodeEvent c w = .ok (.encFx ((moduleOf w).setWidth 32) ((identOf w).setWidth 32)) := by
  simp [decodeEvent, h, hfe]

theorem decodeEvent_le (hfe : c.typeLe ≠ c.typeFe) (hfx : c.typeLe ≠ c.typeFx) (h : typeOf w = c.typeLe) :
    decodeEvent c w =
      .ok (.encLe ((moduleOf w).setWidth 32) ((eventOf w).setWidth 32) ((payloadOf w).setWidth 32)) := by
  simp [decodeEvent, h, hfe, hfx]

theorem decodeEvent_ge (hfe : c.typeGe ≠ c.typeFe) (hfx : c.typeGe ≠ c.typeFx) (hle : c.typeGe ≠ c.typeLe)
    (h : typeOf w = c.typeGe) :
    decodeEvent c w =
      .ok (.encGe ((moduleOf w).setWidth 32) ((eventOf w).setWidth 32) ((payloadOf w).setWidth 32)) := by
  simp [decodeEvent, h, hfe, hfx, hle]

/-- EVERYTHING AN EVENT WORD CAN DECODE TO: the operation of the category whose type code it has, its fields the operands (R70). -/
theorem decodeEvent_cases {i : Instr} (h : decodeEvent c w = .ok i) :
    (typeOf w = c.typeFe ∧ i = .encFe ((moduleOf w).setWidth 32) ((identOf w).setWidth 32)) ∨
    (typeOf w = c.typeFx ∧ i = .encFx ((moduleOf w).setWidth 32) ((identOf w).setWidth 32)) ∨
    (typeOf w = c.typeLe ∧
      i = .encLe ((moduleOf w).setWidth 32) ((eventOf w).setWidth 32) ((payloadOf w).setWidth 32)) ∨
    (typeOf w = c.typeGe ∧
      i = .encGe ((moduleOf w).setWidth 32) ((eventOf w).setWidth 32) ((payloadOf w).setWidth 32)) := by
  unfold decodeEvent at h
  split at h
  · next hty => cases h; exact .inl ⟨hty, rfl⟩
  · split at h
    · next hty => cases h; exact .inr (.inl ⟨hty, rfl⟩)
    · split at h
      · next hty => cases h; exact .inr (.inr (.inl ⟨hty, rfl⟩))
      · split at h
        · next hty => cases h; exact .inr (.inr (.inr ⟨hty, rfl⟩))
        · cases h

end

/-! ## A word from its fields (R67) -/

section
variable (w : Word)

/-- A module field has no bits to bleed into the type field. -/
theorem moduleOf_bleed_eq_zero : ((moduleOf w).setWidth 32).extractLsb' 6 4 = 0#4 :=
  moduleBleed_eq_zero (Nat.le_of_lt_succ (toNat_field (by omega) (moduleOf w)))

theorem identLayout_of_fields : identLayout (typeOf w) ((moduleOf w).setWidth 32) ((identOf w).setWidth 32) = w := by
  obtain ⟨hty, hm, hf⟩ := identLayout_fields (typeOf w) ((moduleOf w).setWidth 32) ((identOf w).setWidth 32)
  exact fields_eq hty (hm.trans (lowBits_setWidth (by omega) _)) (hf.trans (lowBits_setWidth (by omega) _))

theorem packIdent_of_fields : packIdent (typeOf w) ((moduleOf w).setWidth 32) ((identOf w).setWidth 32) = w := by
  obtain ⟨hty, hm, hf⟩ := packIdent_fields (typeOf w) ((moduleOf w).setWidth 32) ((identOf w).setWidth 32)
  rw [moduleOf_bleed_eq_zero, BitVec.or_zero] at hty
  exact fields_eq hty (hm.trans (lowBits_setWidth (by omega) _)) (hf.trans (lowBits_setWidth (by omega) _))

/-- Two words with the same type, module, event and payload fields are equal. -/
theorem event_fields_eq {v w : Word} (hty : typeOf v = typeOf w) (hm : moduleOf v = moduleOf w)
    (he : eventOf v = eventOf w) (hp : payloadOf v = payloadOf w) : v = w :=
  fields_eq hty hm (by rw [identOf_eq, identOf_eq, he, hp])

theorem eventLayout_of_fields :
    eventLayout (typeOf w) ((moduleOf w).setWidth 32) ((eventOf w).setWidth 32) ((payloadOf w).setWidth 32) = w := by
  obtain ⟨hty, hm, he, hp⟩ := eventLayout_fields (typeOf w) ((moduleOf w).setWidth 32) ((eventOf w).setWidth 32)
    ((payloadOf w).setWidth 32)
  exact event_fields_eq hty (hm.trans (lowBits_setWidth (by omega) _)) (he.trans (lowBits_setWidth (by omega) _))
    (hp.trans (lowBits_setWidth (by omega) _))

theorem packEvent_of_fields :
    packEvent (typeOf w) ((moduleOf w).setWidth 32) ((eventOf w).setWidth 32) ((payloadOf w).setWidth 32) = w := by
  obtain ⟨hty, hm, he, hp⟩ := packEvent_fields (typeOf w) ((moduleOf w).setWidth 32) ((eventOf w).setWidth 32)
    ((payloadOf w).setWidth 32)
  rw [moduleOf_bleed_eq_zero, BitVec.or_zero] at hty
  exact event_fields_eq hty (hm.trans (lowBits_setWidth (by omega) _)) (he.trans (lowBits_setWidth (by omega) _))
    (hp.trans (lowBits_setWidth (by omega) _))

end

/-! ## Request records -/

/-- A record is read field by field as it was laid out (log entry 14). -/
theorem decode_recordBytes (c : Config) (sel ctx unit : Nat) (record : Bool) (x y z : Word) (rest : List Byte) :
    decode c .request (recordBytes sel ctx unit record x y z ++ rest) =
      .ok (decodeFields (BitVec.ofNat 8 sel) (BitVec.ofNat 8 ctx) (BitVec.ofNat 8 unit) (if record then 1 else 0) x y z,
        rest) := by
  simp [decode, recordBytes, wordBytes, decodeRequest]

theorem toNat_byte {n : Nat} (hn : n < 256) : (BitVec.ofNat 8 n).toNat = n := by
  rw [BitVec.toNat_ofNat, Nat.mod_eq_of_lt hn]

/-- Bit 0 of the flags byte is `rec`. -/
theorem recordFlag (r : Bool) : (if r = true then 1#8 else 0#8)[0] = r := by cases r <;> rfl

/-- An index of a legal build has a 32-bit operand word (R7: `K` is at most 30). -/
theorem toNat_slotIndex {c : Config} (hc : c.Wf) {i : Nat} (hi : i < c.n) : (BitVec.ofNat 32 i).toNat = i := by
  obtain ⟨hk, -⟩ := hc
  have hn : c.n ≤ 2 ^ 30 := Nat.pow_le_pow_right (by omega) hk
  rw [BitVec.toNat_ofNat, Nat.mod_eq_of_lt (by omega)]

/-- Settles O4: an event word has the layout's fields, and a record's operands stand in its bytes; what fits a field comes back. -/
theorem decodeOfEncodeIsTheInstruction : Obligations.DecodeOfEncodeIsTheInstruction := by
  intro c i rest hc hi
  obtain ⟨-, hnodup, -⟩ := id hc
  simp only [List.nodup_cons, List.mem_cons, List.not_mem_nil, or_false, not_or] at hnodup
  obtain ⟨⟨hfefx, hfele, hfege⟩, ⟨hfxle, hfxge⟩, hlege, -⟩ := hnodup
  cases i with simp only [Instr.wf, decide_eq_true_eq] at hi
  | encFe m f =>
    obtain ⟨hty, hm, hf⟩ := identLayout_fields c.typeFe m f
    rw [encode, Instr.format, decode_wordBytes, decodeEvent_fe hty, hm, hf, setWidth_lowBits hi.1, setWidth_lowBits hi.2]
    rfl
  | encFx m f =>
    obtain ⟨hty, hm, hf⟩ := identLayout_fields c.typeFx m f
    rw [encode, Instr.format, decode_wordBytes, decodeEvent_fx (Ne.symm hfefx) hty, hm, hf, setWidth_lowBits hi.1,
      setWidth_lowBits hi.2]
    rfl
  | encLe m e p =>
    obtain ⟨hmLt, heLt, hpLt⟩ := hi
    obtain ⟨hty, hm, he, hp⟩ := eventLayout_fields c.typeLe m e p
    rw [encode, Instr.format, decode_wordBytes, decodeEvent_le (Ne.symm hfele) (Ne.symm hfxle) hty, hm, he, hp,
      setWidth_lowBits hmLt, setWidth_lowBits heLt, setWidth_lowBits hpLt]
    rfl
  | encGe m e p =>
    obtain ⟨hmLt, heLt, hpLt⟩ := hi
    obtain ⟨hty, hm, he, hp⟩ := eventLayout_fields c.typeGe m e p
    rw [encode, Instr.format, decode_wordBytes, decodeEvent_ge (Ne.symm hfege) (Ne.symm hfxge) (Ne.symm hlege) hty, hm, he,
      hp, setWidth_lowBits hmLt, setWidth_lowBits heLt, setWidth_lowBits hpLt]
    rfl
  | append ctx r w =>
    simp [encode, Instr.format, decode_recordBytes, decodeFields, toNat_byte hi.2, recordFlag]
  | logFe ctx u v f | logFx ctx u v f | logLe ctx u v e p | logGe ctx u v e p =>
    obtain ⟨⟨-, hctx⟩, ⟨-, hunit⟩, hv⟩ := hi
    simp [encode, Instr.format, decode_recordBytes, decodeFields, toNat_byte hctx, toNat_byte hunit, toInt_verbosity hv]
  | dbgRdSlot i => simp [encode, Instr.format, decode_recordBytes, decodeFields, toNat_slotIndex hc hi]
  | dbgRdCursor => simp [encode, Instr.format, decode_recordBytes, decodeFields]
  | reserved => simp [encode, Instr.format, decode_recordBytes, decodeFields]

/-- Settles O5: by the category the word has; in each the layout and the packed word are the word, put together from its fields. -/
theorem eventWordIsReturnedByItsOperation : Obligations.EventWordIsReturnedByItsOperation := by
  intro s w i hi
  have hm := toNat_field (by omega) (moduleOf w)
  have he := toNat_field (by omega) (eventOf w)
  have hp := toNat_field (by omega) (payloadOf w)
  have hf := toNat_field (by omega) (identOf w)
  rcases decodeEvent_cases hi with ⟨hty, rfl⟩ | ⟨hty, rfl⟩ | ⟨hty, rfl⟩ | ⟨hty, rfl⟩
  · refine ⟨decide_eq_true ⟨hm, hf⟩, ?_, ?_⟩
    · rw [encode, ← hty, identLayout_of_fields]
    · rw [exec, execEncFe, wordFe, ← hty, packIdent_of_fields]; rfl
  · refine ⟨decide_eq_true ⟨hm, hf⟩, ?_, ?_⟩
    · rw [encode, ← hty, identLayout_of_fields]
    · rw [exec, execEncFx, wordFx, ← hty, packIdent_of_fields]; rfl
  · refine ⟨decide_eq_true ⟨hm, he, hp⟩, ?_, ?_⟩
    · rw [encode, ← hty, eventLayout_of_fields]
    · rw [exec, execEncLe, wordLe, ← hty, packEvent_of_fields]; rfl
  · refine ⟨decide_eq_true ⟨hm, he, hp⟩, ?_, ?_⟩
    · rw [encode, ← hty, eventLayout_of_fields]
    · rw [exec, execEncGe, wordGe, ← hty, packEvent_of_fields]; rfl

/-! ## The reserved selector -/

/-- Every selector but `111` is a request (R74, R75). -/
theorem decodeFields_eq_reserved_iff (b0 ctx unit flags : Byte) (x y z : Word) :
    decodeFields b0 ctx unit flags x y z = .reserved ↔ b0.extractLsb' 0 3 = 7#3 := by
  have hlt := (b0.extractLsb' 0 3).isLt
  rw [← BitVec.toNat_inj, decodeFields]
  generalize (b0.extractLsb' 0 3).toNat = sel at hlt
  interval_cases sel <;> simp

/-- A record of the fixed size or more decodes, by its first byte's selector, and leaves the surplus (R78, log entry 25). -/
theorem decode_record_of_length (c : Config) (b : Byte) {bs : List Byte} (hlen : 15 ≤ bs.length) :
    ∃ i, decode c .request (b :: bs) = .ok (i, bs.drop 15) ∧ (i = .reserved ↔ b.extractLsb' 0 3 = 7#3) := by
  match bs, hlen with
  | b1 :: b2 :: b3 :: x0 :: x1 :: x2 :: x3 :: y0 :: y1 :: y2 :: y3 :: z0 :: z1 :: z2 :: z3 :: rest, _ =>
    exact ⟨_, rfl, decodeFields_eq_reserved_iff ..⟩

/-- Bytes that decode to an operation run it (the surplus is dropped: log entry 25). -/
theorem performBytes_of_decode {s : State} {f : Format} {bs tl : List Byte} {i : Instr}
    (hd : decode s.cfg f bs = .ok (i, tl)) : performBytes f bs s = exec i s := by
  simp [performBytes, hd]

/-- The step of a record presented is that of the operation it decodes to. -/
theorem step_record {s : State} {bs tl : List Byte} {rest : List Input} {i : Instr} (h : s.inputs = .record bs :: rest)
    (hd : decode s.cfg .request bs = .ok (i, tl)) : step s = exec i { s with inputs := rest } := by
  rw [step, nextInput_cons s h, consume_cons s h]
  exact performBytes_of_decode (s := { s with inputs := rest }) hd

/-- Settles O6: a record decodes to the reserved operation by its selector alone, and `exec` refuses that operation. -/
theorem selectorSevenAloneIsReservedAndRefused : Obligations.SelectorSevenAloneIsReservedAndRefused := by
  refine ⟨fun _ => rfl, fun c b bs hlen => decode_record_of_length c b hlen, fun s b bs rest hlen hsel hin => ?_⟩
  obtain ⟨i, hd, hi⟩ := decode_record_of_length s.cfg b hlen
  rw [step_record hin hd, hi.mpr hsel]
  rfl

end Sys2Proof.Machine
end

section
/-! PROOF. The Encoder's operations (41_encoder.md R91 to R94), that no word of theirs is 0 where no type code is (30_encoding.md R73),
and which operation a step runs (60_exceptions.md R169). -/

namespace Sys2Proof.Machine

/-! ## The Encoder -/

/-- Settles O7: the word each operation returns is `packIdent` of its type code. -/
theorem encIdentifierOperationsReturnTheirWord : Obligations.EncIdentifierOperationsReturnTheirWord := by
  constructor <;> intro s m f
  · exact ⟨wordFe s.cfg m f, rfl, rfl, packIdent_fields s.cfg.typeFe m f⟩
  · exact ⟨wordFx s.cfg m f, rfl, rfl, packIdent_fields s.cfg.typeFx m f⟩

/-- The fields of an event word as R93 and R94 state them: the type with its bleed, then the operands mod their field's size. -/
theorem packEvent_mod_fields (ty : BitVec 4) (m e p : Word) :
    typeOf (packEvent ty m e p) = ty ||| m.extractLsb' 6 4 ∧ moduleOf (packEvent ty m e p) = m.extractLsb' 0 6 ∧
      (eventOf (packEvent ty m e p)).toNat = e.toNat % 64 ∧
      (payloadOf (packEvent ty m e p)).toNat = p.toNat % 65536 := by
  obtain ⟨hty, hm, -⟩ := packEvent_fields ty m e p
  obtain ⟨-, he, hp⟩ := packEvent_toNat ty m e p
  exact ⟨hty, hm, he, hp⟩

/-- Settles O8: the word each operation returns is `packEvent` of its type code. -/
theorem encEventOperationsReturnTheirWord : Obligations.EncEventOperationsReturnTheirWord := by
  constructor <;> intro s m e p
  · exact ⟨wordLe s.cfg m e p, rfl, rfl, packEvent_mod_fields s.cfg.typeLe m e p⟩
  · exact ⟨wordGe s.cfg m e p, rfl, rfl, packEvent_mod_fields s.cfg.typeGe m e p⟩

/-- The module id's bleed only sets bits, so a word whose type field holds a type code that is not 0 is not 0. -/
theorem ne_zero_of_typeOf {w : Word} {ty bleed : BitVec 4} (hty : ty ≠ 0) (h : typeOf w = ty ||| bleed) : w ≠ 0 := by
  rintro rfl
  have hor : ty ||| bleed = 0#4 := h.symm
  exact hty (BitVec.or_eq_zero_iff.mp hor).1

/-- Settles O10: each word's type field is its type code with bits set. -/
theorem encoderNeverProducesZero : Obligations.EncoderNeverProducesZero := by
  intro c m e p f hfe hfx hle hge
  exact ⟨ne_zero_of_typeOf hfe (packIdent_fields c.typeFe m f).1, ne_zero_of_typeOf hfx (packIdent_fields c.typeFx m f).1,
    ne_zero_of_typeOf hle (packEvent_fields c.typeLe m e p).1, ne_zero_of_typeOf hge (packEvent_fields c.typeGe m e p).1⟩

/-! ## The operation a step runs -/

/-- A word of the opcode table presented is performed as bytes of its format (log entry 22). -/
theorem perform_tableInput (c : Config) (nbits w : Nat) (s : State) :
    perform (tableInput c nbits w) s = performBytes (tableFormat nbits) (tableBytes c nbits w) s := by
  unfold tableInput
  cases tableFormat nbits <;> rfl

theorem step_withFetchWord (s : State) (nbits w : Nat) :
    step (s.withFetchWord nbits w) = performBytes (tableFormat nbits) (tableBytes s.cfg nbits w) s :=
  perform_tableInput s.cfg nbits w s

/-- The step of an event word presented is that of the operation it decodes to. -/
theorem step_event {s : State} {bs tl : List Byte} {rest : List Input} {i : Instr} (h : s.inputs = .event bs :: rest)
    (hd : decode s.cfg .eventWord bs = .ok (i, tl)) : step s = exec i { s with inputs := rest } := by
  rw [step, nextInput_cons s h, consume_cons s h]
  exact performBytes_of_decode (s := { s with inputs := rest }) hd

/-- With no choice made, the free one is performed and counted (log entry 7). -/
theorem step_free {s : State} (h : s.inputs = []) :
    step s = perform (Config.freeInput s.tick) { s with tick := s.tick + 1 } := by
  simp [step, State.nextInput, State.consume, h]

/-- Settles O2: the step of each kind of choice that presents an operation. -/
theorem stepRunsThePresentedInstruction : Obligations.StepRunsThePresentedInstruction := by
  refine ⟨fun _ _ _ h => step_call h, fun _ _ _ _ _ h hd => step_record h hd, fun _ _ _ _ _ h hd => step_event h hd,
    fun s nbits w i tl hd => ?_, fun _ h => step_free h⟩
  rw [step_withFetchWord, performBytes_of_decode hd]

/-- Settles O3: the decoder runs on thirteen fixed words. -/
theorem exampleWordsDecode : Obligations.ExampleWordsDecode := by
  unfold Obligations.ExampleWordsDecode
  decide

end Sys2Proof.Machine
end

section
/-! PROOF. Requests (43_log_requests.md R136 to R144): which are `skip`, the issue of an append, the append it starts, what a
request leaves unchanged, and every refusal. -/

namespace Sys2Proof.Machine

/-! ## Requests that are `skip`, requests that issue -/

/-- R136: with `rec = 0` an APPEND is `skip`. -/
theorem exec_append_skip (s : State) (c : Nat) (w : Word) : exec (.append c false w) s = .next s := by
  simp [exec, execAppend, appendRequest_eq]

/-- R136: with ENABLE = 1 and `rec = 1` an APPEND issues. -/
theorem exec_append_enabled {s : State} (he : s.cfg.enable = true) (c : Nat) (w : Word) :
    exec (.append c true w) s = issueAppend c w s := by
  simp [exec, execAppend, appendRequest_eq, he]

/-! Each LOG request is `logRequest` with the Encoder's word of its operands. -/

section
variable (s : State) (c u : Nat) (v : Int) (a b : Word)

theorem exec_logFe : exec (.logFe c u v a) s = logRequest c u v (fun m => wordFe s.cfg m a) s := rfl
theorem exec_logFx : exec (.logFx c u v a) s = logRequest c u v (fun m => wordFx s.cfg m a) s := rfl
theorem exec_logLe : exec (.logLe c u v a b) s = logRequest c u v (fun m => wordLe s.cfg m a b) s := rfl
theorem exec_logGe : exec (.logGe c u v a b) s = logRequest c u v (fun m => wordGe s.cfg m a b) s := rfl

end

section
variable {s : State} {u : Nat} {un : UnitCfg} {v : Int}

/-- R144: a LOG request whose gate is false is `skip`. -/
theorem logRequest_skip (hu : s.cfg.units[u]? = some un) (hgate : ¬(0 < v ∧ v ≤ un.threshold)) (c : Nat)
    (enc : Word → Word) : logRequest c u v enc s = .next s := by
  rw [logRequest_eq hu, if_neg fun h => hgate h.2]

/-- R139 to R142: an enabled LOG request whose gate is true issues the append of its unit's word. -/
theorem logRequest_issues (he : s.cfg.enable = true) (hu : s.cfg.units[u]? = some un) (hlow : 0 < v)
    (hhigh : v ≤ un.threshold) (c : Nat) (enc : Word → Word) :
    logRequest c u v enc s = issueAppend c (enc un.moduleId) s := by
  rw [logRequest_eq hu, if_pos ⟨he, hlow, hhigh⟩]

/-- Log entry 17: an enabled LOG request of a unit that does not exist has no threshold to read. -/
theorem logRequest_noSuchUnit (he : s.cfg.enable = true) (hu : s.cfg.units.length ≤ u) (c : Nat) (enc : Word → Word) :
    logRequest c u v enc s = .refused .noSuchUnit := by
  simp [logRequest, he, List.getElem?_eq_none hu]

end

/-- Settles O13: `rec = 0`, and a gate that is false. -/
theorem skippedRequestsChangeNothing : Obligations.SkippedRequestsChangeNothing := by
  refine ⟨exec_append_skip, fun s c u un v a b hu hgate => ?_⟩
  rw [exec_logFe, exec_logFx, exec_logLe, exec_logGe]
  exact ⟨logRequest_skip hu hgate c _, logRequest_skip hu hgate c _, logRequest_skip hu hgate c _,
    logRequest_skip hu hgate c _⟩

/-- An operation that asks for an append issues it. -/
theorem exec_of_appendAsked {i : Instr} {s : State} {c : Nat} {w : Word} (ha : appendAsked s.cfg i = some (c, w)) :
    exec i s = issueAppend c w s := by
  have hi : isRequest i = true := by
    cases i with
    | append | logFe | logFx | logLe | logGe => rfl
    | encFe | encFx | encLe | encGe | dbgRdSlot | dbgRdCursor | reserved => cases ha
  rcases request_cases hi s with ⟨c', w', ha', he⟩ | ⟨ha', -⟩ | ⟨ha', -⟩
  · rw [ha'] at ha
    cases ha
    exact he
  · rw [ha'] at ha
    cases ha
  · rw [ha'] at ha
    cases ha

/-! ## The issue of an append, and the whole append -/

/-- The issue of an append: CSE (R116) or R (R111), which leave everything but the running context and the mask level. -/
theorem issued_firstMicro {s : State} {c : Nat} (h : s.ready c) (w : Word) : Issued s (firstMicro w s) c w := by
  obtain ⟨f, r, hs, rfl, -⟩ := (ready_iff s c).mp h
  cases hpol : s.cfg.policy with
  | mask =>
    rw [firstMicro, hpol]
    simp [Issued, SameOutside, hpol, microCse_cons hs, State.contexts, State.phaseOf, hs]
  | nomask =>
    rw [firstMicro, hpol]
    simp [Issued, SameOutside, hpol, microR_cons hs, State.contexts, State.phaseOf, hs]

/-- What R115 and R119 have in common: a state that differs from `s` by the word written, the cursor advanced, and a top frame of
the same context, `Idle`. -/
theorem appended_of_top {s : State} {f : Frame} {r : List Frame} (hs : s.stack = f :: r) (w : Word) (saved : Nat) :
    Appended s { s with
      mem := s.mem.writeWord s.cfg.endian (s.cfg.slotAddr s.cursor) w
      cursor := (s.cursor + 1) % s.cfg.n
      stack := ⟨f.ctx, .idle, saved⟩ :: r } f.ctx w := by
  refine ⟨⟨rfl, ?_, ?_, rfl, rfl, rfl, rfl⟩, readWord_writeWord_self _ _ _ _, rfl,
    fun a ha => readByte_writeWord_outside _ _ _ _ ha, rfl, phaseOf_top _ ⟨f.ctx, .idle, saved⟩ r rfl⟩
  · simp [State.contexts, hs]
  · simp [hs]

/-- An append issued by a context that may, run to its end by the micro-steps left, is one whole append. -/
theorem appended_microSteps {s : State} {c : Nat} (h : s.ready c) (w : Word) :
    Appended s (microSteps (restSteps s.cfg.policy) (firstMicro w s)) c w := by
  obtain ⟨f, r, hs, rfl, -⟩ := (ready_iff s c).mp h
  cases hpol : s.cfg.policy with
  | mask => rw [← hpol, microSteps_mask hpol hs]; exact appended_of_top hs w s.maskLevel
  | nomask => rw [← hpol, microSteps_nomask hpol hs]; exact appended_of_top hs w f.saved

/-- The issue and the append it starts, for whatever operation asks for it. -/
theorem issueAppend_appends {s : State} {c : Nat} (h : s.ready c) (w : Word) :
    ∃ t, issueAppend c w s = .next t ∧ Issued s t c w ∧ Appended s (microSteps (restSteps s.cfg.policy) t) c w :=
  ⟨_, issueAppend_ready h w, issued_firstMicro h w, appended_microSteps h w⟩

/-- Settles O11: an enabled APPEND with `rec = 1` issues. -/
theorem appendStoresTheWordAndAdvancesTheCursor : Obligations.AppendStoresTheWordAndAdvancesTheCursor := by
  intro s c w he h
  rw [exec_append_enabled he]
  exact issueAppend_appends h w

/-- Settles O12: each LOG request whose gate is true issues the append of its word. -/
theorem logRequestsAppendTheirWord : Obligations.LogRequestsAppendTheirWord := by
  intro s c u un v he h hu hlow hhigh
  have key (enc : Word → Word) : ∃ t, logRequest c u v enc s = .next t ∧ Issued s t c (enc un.moduleId) ∧
      Appended s (microSteps (restSteps s.cfg.policy) t) c (enc un.moduleId) := by
    rw [logRequest_issues he hu hlow hhigh]
    exact issueAppend_appends h _
  exact ⟨fun f => key fun m => wordFe s.cfg m f, fun f => key fun m => wordFx s.cfg m f,
    fun e p => key fun m => wordLe s.cfg m e p, fun e p => key fun m => wordGe s.cfg m e p⟩

/-- Settles O20: CSE is the first micro-step under MASK. -/
theorem microStepCseRaisesTheMask : Obligations.MicroStepCseRaisesTheMask := by
  intro s f r w he hpol hs hp
  rw [exec_append_enabled he, issueAppend_ready ((ready_iff s f.ctx).mpr ⟨f, r, hs, rfl, hp⟩), firstMicro, hpol]
  exact congrArg _ (microCse_cons hs w)

/-- Settles O17: R is the micro-step from `Entered` under MASK and the first one under NOMASK. -/
theorem microStepRReadsTheCursor : Obligations.MicroStepRReadsTheCursor := by
  constructor
  · intro s rest f r w hi hpol hs hp
    rw [step_micro hi, microStep_entered (s := { s with inputs := rest }) hs hp hpol,
      microR_cons (s := { s with inputs := rest }) hs]
  · intro s f r w he hpol hs hp
    rw [exec_append_enabled he, issueAppend_ready ((ready_iff s f.ctx).mpr ⟨f, r, hs, rfl, hp⟩), firstMicro, hpol]
    exact congrArg _ (microR_cons hs w)

/-! ## The frame -/

/-- What the issue of an append leaves unchanged. -/
theorem Issued.frame {s t : State} {c : Nat} {w : Word} (h : Issued s t c w) :
    (∀ a, t.mem.readByte a = s.mem.readByte a) ∧ t.cursor = s.cursor ∧ SameOutside s t ∧
      (s.cfg.policy = .nomask → t.maskLevel = s.maskLevel) := by
  obtain ⟨houtside, hcursor, hmem, hpol⟩ := h
  refine ⟨hmem, hcursor, houtside, fun hnomask => ?_⟩
  rw [hnomask] at hpol
  obtain ⟨-, hlevel, -⟩ := hpol
  exact hlevel

/-- Settles O15: a request that goes on issued the append it asks for, or was `skip`. -/
theorem requestsLeaveEverythingElseUnchanged : Obligations.RequestsLeaveEverythingElseUnchanged := by
  intro i s t hi h
  rcases request_cases hi s with ⟨c, w, ha, he⟩ | ⟨-, he⟩ | ⟨-, -, he⟩
  · obtain ⟨hready, rfl⟩ := issueAppend_next (he ▸ h)
    obtain ⟨hmem, hcursor, houtside, hmask⟩ := (issued_firstMicro hready w).frame
    exact ⟨hmem, hcursor, houtside, hmask, fun hnone => by rw [ha] at hnone; cases hnone⟩
  · obtain rfl : s = t := by rw [he] at h; exact Host.Outcome.next.inj h
    exact ⟨fun _ => rfl, rfl, ⟨rfl, rfl, rfl, rfl, rfl, rfl, rfl⟩, fun _ => rfl, fun _ => rfl⟩
  · rw [he] at h
    cases h

/-! ## Refusals -/

/-- The two reasons for which the issue of an append is refused (R111, R116, R169). -/
theorem issueAppend_refused_iff {s : State} {c : Nat} {w : Word} {r : Refusal} :
    issueAppend c w s = .refused r ↔
      (r = .notRunning ∧ s.running c = false) ∨
      (r = .appendInFlight ∧ s.running c = true ∧ s.phaseOf c ≠ .idle) := by
  rw [issueAppend_eq]
  cases hr : s.running c with
  | false => simp [eq_comm]
  | true =>
    by_cases hp : s.phaseOf c = .idle
    · simp [hp]
    · simp [hp, eq_comm]

/-- A LOG request refused for its unit has none: of a unit that exists, only the issue of its append may be refused. -/
theorem length_le_of_logRequest_noSuchUnit {s : State} {c u : Nat} {v : Int} {enc : Word → Word}
    (h : logRequest c u v enc s = .refused .noSuchUnit) : s.cfg.units.length ≤ u := by
  by_contra hu
  rw [logRequest_eq (List.getElem?_eq_getElem (Nat.not_le.mp hu))] at h
  split at h
  · rcases issueAppend_refused_iff.mp h with ⟨hr, -⟩ | ⟨hr, -⟩ <;> cases hr
  · cases h

/-- A request is refused for a unit that does not exist, or as the append it asks for is. -/
theorem request_refused_cases {i : Instr} (hi : isRequest i = true) {s : State} {r : Refusal}
    (h : exec i s = .refused r) :
    (s.cfg.enable = true ∧ r = .noSuchUnit) ∨ ∃ c w, appendAsked s.cfg i = some (c, w) ∧ issueAppend c w s = .refused r := by
  rcases request_cases hi s with ⟨c, w, ha, he⟩ | ⟨-, he⟩ | ⟨-, hen, he⟩
  · exact .inr ⟨c, w, ha, he ▸ h⟩
  · rw [he] at h
    cases h
  · rw [he] at h
    cases h
    exact .inl ⟨hen, rfl⟩

/-- Log entry 17: an enabled slot read whose index is not below `N`. -/
theorem exec_dbgRdSlot_noSuchSlot {s : State} (he : s.cfg.enable = true) {n : Nat} (hn : ¬ n < s.cfg.n) :
    exec (.dbgRdSlot n) s = .refused .noSuchSlot := by
  rw [exec, execDbgRdSlot, if_pos he, if_neg hn]

/-- An operation is refused only if it is the reserved one, a debugger read that may not be answered, a LOG request of a unit
that does not exist, or asks for an append that may not be issued. -/
theorem exec_refused_cases {i : Instr} {s : State} {r : Refusal} (h : exec i s = .refused r) :
    (i = .reserved ∧ r = .reservedSelector) ∨
    (s.cfg.enable = false ∧ r = .debugDisabled ∧ (i = .dbgRdCursor ∨ ∃ n, i = .dbgRdSlot n)) ∨
    (s.cfg.enable = true ∧ r = .noSuchSlot ∧ ∃ n, i = .dbgRdSlot n ∧ s.cfg.n ≤ n) ∨
    (s.cfg.enable = true ∧ r = .noSuchUnit ∧ ∃ c u v a b, s.cfg.units.length ≤ u ∧
      (i = .logFe c u v a ∨ i = .logFx c u v a ∨ i = .logLe c u v a b ∨ i = .logGe c u v a b)) ∨
    ∃ c w, appendAsked s.cfg i = some (c, w) ∧ issueAppend c w s = .refused r := by
  have log {c u : Nat} {v : Int} {a b : Word} {enc : Word → Word} (hi : isRequest i = true)
      (he : exec i s = logRequest c u v enc s)
      (hform : i = .logFe c u v a ∨ i = .logFx c u v a ∨ i = .logLe c u v a b ∨ i = .logGe c u v a b) :
      (s.cfg.enable = true ∧ r = .noSuchUnit ∧ ∃ c u v a b, s.cfg.units.length ≤ u ∧
        (i = .logFe c u v a ∨ i = .logFx c u v a ∨ i = .logLe c u v a b ∨ i = .logGe c u v a b)) ∨
      ∃ c w, appendAsked s.cfg i = some (c, w) ∧ issueAppend c w s = .refused r := by
    rcases request_refused_cases hi h with ⟨hen, rfl⟩ | hasked
    · exact .inl ⟨hen, rfl, c, u, v, a, b, length_le_of_logRequest_noSuchUnit (he ▸ h), hform⟩
    · exact .inr hasked
  cases i with
  | encFe | encFx | encLe | encGe => cases h
  | append c rec w =>
    simp only [exec, execAppend, appendRequest_eq] at h
    split at h
    · next hon => exact .inr (.inr (.inr (.inr ⟨c, w, by simp [appendAsked, hon], h⟩)))
    · cases h
  | logFe c u v a => exact .inr (.inr (.inr (log (b := 0) rfl (exec_logFe s c u v a) (.inl rfl))))
  | logFx c u v a => exact .inr (.inr (.inr (log (b := 0) rfl (exec_logFx s c u v a) (.inr (.inl rfl)))))
  | logLe c u v a b => exact .inr (.inr (.inr (log rfl (exec_logLe s c u v a b) (.inr (.inr (.inl rfl))))))
  | logGe c u v a b => exact .inr (.inr (.inr (log rfl (exec_logGe s c u v a b) (.inr (.inr (.inr rfl))))))
  | dbgRdSlot n =>
    cases hen : s.cfg.enable with
    | false =>
      rw [exec_dbgRdSlot_disabled hen] at h
      cases h
      exact .inr (.inl ⟨rfl, rfl, .inr ⟨n, rfl⟩⟩)
    | true =>
      by_cases hn : n < s.cfg.n
      · rw [exec_dbgRdSlot_enabled hen hn] at h
        cases h
      · simp only [exec, execDbgRdSlot, hen, if_true, if_neg hn] at h
        cases h
        exact .inr (.inr (.inl ⟨rfl, rfl, n, rfl, Nat.le_of_not_lt hn⟩))
  | dbgRdCursor =>
    cases hen : s.cfg.enable with
    | false =>
      rw [exec_dbgRdCursor_disabled hen] at h
      cases h
      exact .inr (.inl ⟨rfl, rfl, .inl rfl⟩)
    | true =>
      rw [exec_dbgRdCursor_enabled hen] at h
      cases h
  | reserved =>
    cases h
    exact .inl ⟨rfl, rfl⟩

/-- Settles O16: forward, by the operation; backward, each reason refuses it by its name. -/
theorem refusalsAreExactlyThese : Obligations.RefusalsAreExactlyThese := by
  intro i s r
  constructor
  · intro h
    rcases exec_refused_cases h with hres | hoff | hslot | hunit | ⟨c, w, ha, hi⟩
    · exact .inl hres
    · exact .inr (.inl hoff)
    · exact .inr (.inr (.inl hslot))
    · exact .inr (.inr (.inr (.inl hunit)))
    · rcases issueAppend_refused_iff.mp hi with ⟨hr, hrun⟩ | ⟨hr, hrun, hp⟩
      · exact .inr (.inr (.inr (.inr (.inl ⟨hr, c, w, ha, hrun⟩))))
      · exact .inr (.inr (.inr (.inr (.inr ⟨hr, c, w, ha, hrun, hp⟩))))
  · rintro (⟨rfl, rfl⟩ | ⟨hen, rfl, rfl | ⟨n, rfl⟩⟩ | ⟨hen, rfl, n, rfl, hn⟩ |
      ⟨hen, rfl, c, u, v, a, b, hu, rfl | rfl | rfl | rfl⟩ | ⟨rfl, c, w, ha, hrun⟩ | ⟨rfl, c, w, ha, hrun, hp⟩)
    · rfl
    · exact exec_dbgRdCursor_disabled hen
    · exact exec_dbgRdSlot_disabled hen n
    · exact exec_dbgRdSlot_noSuchSlot hen (Nat.not_lt.mpr hn)
    · rw [exec_logFe, logRequest_noSuchUnit hen hu]
    · rw [exec_logFx, logRequest_noSuchUnit hen hu]
    · rw [exec_logLe, logRequest_noSuchUnit hen hu]
    · rw [exec_logGe, logRequest_noSuchUnit hen hu]
    · rw [exec_of_appendAsked ha]
      exact issueAppend_refused_iff.mpr (.inl ⟨rfl, hrun⟩)
    · rw [exec_of_appendAsked ha]
      exact issueAppend_refused_iff.mpr (.inr ⟨rfl, hrun, hp⟩)

end Sys2Proof.Machine
end

section
/-! PROOF. What a step does to the shared state, as one inductive relation (`Effect`, tied to the model by `step_effect`), and what
follows at once: which step writes storage, the cursor, the mask level and the stack (10_state.md R21, R25, R31; 60_exceptions.md R172). -/

namespace Sys2Proof.Machine

/-! ## The effect of a step -/

/-- What a choice `x` taken up in the state `u` may leave: nothing changed outside the model's ports, the first micro-step of an append
asked for, the micro-step the running context's phase enables, an enabled push or pop, or a reset. -/
inductive Effect (x : Input) (u : State) : State → Prop
  /-- No state of TFIFO or of the environment changes. -/
  | quiet {t : State} (cfg : t.cfg = u.cfg) (mem : t.mem = u.mem) (cursor : t.cursor = u.cursor) (stack : t.stack = u.stack)
      (level : t.maskLevel = u.maskLevel) : Effect x u t
  /-- CSE (R116): an append is issued under MASK. -/
  | enter {i : Instr} {f : Frame} {r : List Frame} {w : Word} (presents : presented u.cfg x = some i)
      (asks : appendAsked u.cfg i = some (f.ctx, w)) (policy : u.cfg.policy = .mask) (stack : u.stack = f :: r)
      (idle : f.phase = .idle) :
      Effect x u { u with
        stack := { f with phase := .entered w, saved := u.maskLevel } :: r
        maskLevel := max u.maskLevel u.cfg.maskCeiling }
  /-- R (R111): an append is issued under NOMASK, or goes on from `Entered` under MASK. -/
  | read {f : Frame} {r : List Frame} {w : Word} (stack : u.stack = f :: r)
      (origin : (u.cfg.policy = .nomask ∧ f.phase = .idle ∧
          ∃ i, presented u.cfg x = some i ∧ appendAsked u.cfg i = some (f.ctx, w)) ∨
        (x = .micro ∧ u.cfg.policy = .mask ∧ f.phase = .entered w)) :
      Effect x u { u with stack := { f with phase := .read w u.cursor } :: r }
  /-- W (R112). -/
  | write {f : Frame} {r : List Frame} {w : Word} {p : Nat} (micro : x = .micro) (stack : u.stack = f :: r)
      (phase : f.phase = .read w p) :
      Effect x u { u with
        mem := u.mem.writeWord u.cfg.endian (u.cfg.slotAddr p) w
        stack := { f with phase := .written p } :: r }
  /-- C (R113). -/
  | advance {f : Frame} {r : List Frame} {p : Nat} (micro : x = .micro) (stack : u.stack = f :: r)
      (phase : f.phase = .written p) :
      Effect x u { u with
        cursor := (p + 1) % u.cfg.n
        stack := { f with phase := phaseAfterC u.cfg.policy } :: r }
  /-- CSX (R117). -/
  | leave {f : Frame} {r : List Frame} (micro : x = .micro) (policy : u.cfg.policy = .mask) (stack : u.stack = f :: r)
      (phase : f.phase = .committed) :
      Effect x u { u with maskLevel := f.saved, stack := { f with phase := .idle } :: r }
  /-- An enabled push (R170). -/
  | push {f : Frame} {r : List Frame} {d : Nat} (push : x = .push d) (stack : u.stack = f :: r)
      (known : d < u.cfg.prios.length) (off : d ∉ u.contexts) (prio : u.cfg.prio f.ctx < u.cfg.prio d)
      (level : u.maskLevel < u.cfg.prio d) :
      Effect x u { u with stack := ⟨d, .idle, 0⟩ :: u.stack }
  /-- An enabled pop (R171). -/
  | pop {f : Frame} {r : List Frame} (pop : x = .pop f.ctx) (stack : u.stack = f :: r) (main : f.ctx ≠ mainCtx)
      (idle : f.phase = .idle) : Effect x u { u with stack := r }
  /-- Reset (R190). -/
  | reset (reset : x = .reset) : Effect x u u.restart

section
variable {x : Input} {u t : State}

/-- Nothing changed at all is nothing changed. -/
theorem Effect.refl (x : Input) (u : State) : Effect x u u := .quiet rfl rfl rfl rfl rfl

theorem effect_issueAppend {i : Instr} {c : Nat} {w : Word} (hx : presented u.cfg x = some i)
    (ha : appendAsked u.cfg i = some (c, w)) (h : issueAppend c w u = .next t) : Effect x u t := by
  obtain ⟨hready, rfl⟩ := issueAppend_next h
  obtain ⟨f, r, hs, rfl, hidle⟩ := (ready_iff u c).mp hready
  cases hpol : u.cfg.policy with
  | mask =>
    rw [show firstMicro w u = microCse w u by rw [firstMicro, hpol], microCse_cons hs]
    exact .enter hx ha hpol hs hidle
  | nomask =>
    rw [show firstMicro w u = microR w u by rw [firstMicro, hpol], microR_cons hs]
    exact .read hs (.inl ⟨hpol, hidle, i, hx, ha⟩)

theorem effect_microStep (u : State) : Effect .micro u (microStep u) := by
  rcases microStep_cases u with h | ⟨f, r, hs, ⟨w, hp, hpol, h⟩ | ⟨w, p, hp, h⟩ | ⟨p, hp, h⟩ | ⟨hp, hpol, h⟩⟩
  · rw [h]; exact .refl _ u
  · rw [h, microR_cons hs]; exact .read hs (.inr ⟨rfl, hpol, hp⟩)
  · rw [h, microW_cons hs]; exact .write rfl hs hp
  · rw [h, microC_cons hs]; exact .advance rfl hs hp
  · rw [h, microCsx_cons hs]; exact .leave rfl hpol hs hp

theorem effect_push (u : State) (d : Nat) : Effect (.push d) u (u.push d) := by
  by_cases he : u.pushEnabled d = true
  · obtain ⟨f, r, hs⟩ := stack_cons_of_pushEnabled he
    obtain ⟨hd, hoff, hprio, hlevel⟩ := (pushEnabled_iff hs d).mp he
    rw [push_enabled he]
    exact .push rfl hs hd hoff hprio hlevel
  · rw [State.push, if_neg he]
    exact .refl _ u

theorem effect_pop (u : State) (d : Nat) : Effect (.pop d) u (u.pop d) := by
  by_cases he : u.popEnabled d = true
  · obtain ⟨f, r, hs⟩ := stack_cons_of_popEnabled he
    obtain ⟨rfl, hmain, hidle⟩ := (popEnabled_iff hs d).mp he
    rw [pop_enabled he, hs, List.tail_cons]
    exact .pop rfl hs hmain hidle
  · rw [State.pop, if_neg he]
    exact .refl _ u

/-- WHAT A STEP DOES: one of the effects, of the choice it takes up. -/
theorem step_effect {s : State} (h : step s = .next t) : Effect s.nextInput s.consume t := by
  rcases step_cases h with ⟨w, rfl⟩ | ⟨w, rfl⟩ | rfl | ⟨i, c, w, hx, ha, hissue⟩ | ⟨hx, rfl⟩ | ⟨d, hx, rfl⟩ | ⟨d, hx, rfl⟩ |
    ⟨hx, rfl⟩
  · exact .quiet rfl rfl rfl rfl rfl
  · exact .quiet rfl rfl rfl rfl rfl
  · exact .refl _ _
  · exact effect_issueAppend (by simpa using hx) (by simpa using ha) hissue
  · rw [hx]; exact effect_microStep _
  · rw [hx]; exact effect_push _ d
  · rw [hx]; exact effect_pop _ d
  · exact .reset hx

/-! ## What an effect changes -/

theorem Effect.cfg_eq (h : Effect x u t) : t.cfg = u.cfg := by
  cases h with
  | quiet cfg => exact cfg
  | enter | read | write | advance | leave | push | pop | reset => rfl

/-- Only W writes memory (R21). -/
theorem Effect.mem_cases (h : Effect x u t) (hx : x ≠ .reset) :
    t.mem = u.mem ∨ (x = .micro ∧ ∃ f r w p, u.stack = f :: r ∧ f.phase = .read w p ∧
      t.mem = u.mem.writeWord u.cfg.endian (u.cfg.slotAddr p) w) := by
  cases h with
  | quiet _ mem => exact .inl mem
  | write micro stack phase => exact .inr ⟨micro, _, _, _, _, stack, phase, rfl⟩
  | reset reset => exact absurd reset hx
  | enter | read | advance | leave | push | pop => exact .inl rfl

/-- Only C writes the cursor (R25). -/
theorem Effect.cursor_cases (h : Effect x u t) (hx : x ≠ .reset) :
    t.cursor = u.cursor ∨ (x = .micro ∧ ∃ f r p, u.stack = f :: r ∧ f.phase = .written p ∧
      t.cursor = (p + 1) % u.cfg.n) := by
  cases h with
  | quiet _ _ cursor => exact .inl cursor
  | advance micro stack phase => exact .inr ⟨micro, _, _, _, stack, phase, rfl⟩
  | reset reset => exact absurd reset hx
  | enter | read | write | leave | push | pop => exact .inl rfl

/-- Only CSE and CSX write the mask level (R172). -/
theorem Effect.maskLevel_cases (h : Effect x u t) (hx : x ≠ .reset) :
    t.maskLevel = u.maskLevel ∨ (u.cfg.policy = .mask ∧ ∃ f r, u.stack = f :: r ∧
      ((f.phase = .idle ∧ (∃ w, t.phaseOf f.ctx = .entered w) ∧ t.maskLevel = max u.maskLevel u.cfg.maskCeiling) ∨
       (x = .micro ∧ f.phase = .committed ∧ t.phaseOf f.ctx = .idle ∧ t.maskLevel = f.saved))) := by
  cases h with
  | quiet _ _ _ _ level => exact .inl level
  | @enter i f r w _ _ policy stack idle =>
    exact .inr ⟨policy, f, r, stack, .inl ⟨idle, ⟨w, phaseOf_top _ ⟨f.ctx, .entered w, u.maskLevel⟩ r rfl⟩, rfl⟩⟩
  | @leave f r micro policy stack phase =>
    exact .inr ⟨policy, f, r, stack, .inr ⟨micro, phase, phaseOf_top _ ⟨f.ctx, .idle, f.saved⟩ r rfl, rfl⟩⟩
  | reset reset => exact absurd reset hx
  | read | write | advance | push | pop => exact .inl rfl

theorem contexts_eq_of_stack (h : t.stack = u.stack) : t.contexts = u.contexts := by
  rw [State.contexts, State.contexts, h]

/-- A top frame replaced by one of the same context leaves the contexts as they were. -/
theorem contexts_eq_of_top {f g : Frame} {r : List Frame} (hu : u.stack = f :: r) (ht : t.stack = g :: r)
    (hctx : g.ctx = f.ctx) : t.contexts = u.contexts := by
  rw [contexts_cons t g r ht, contexts_cons u f r hu, hctx]

/-- The running context is the last of those on the stack (R169). -/
theorem running_of_contexts {pre : List Nat} {c : Nat} (h : u.contexts = pre ++ [c]) : u.running c = true := by
  cases hu : u.stack with
  | nil => simp [State.contexts, hu] at h
  | cons f r =>
    rw [contexts_cons u f r hu] at h
    exact (running_iff u c).mpr ⟨f, r, hu, List.singleton_inj.mp (List.append_inj' h rfl).2⟩

/-- Only a push, a pop or a reset changes which contexts are on the stack (R175, R176). -/
theorem Effect.contexts_cases (h : Effect x u t) (hx : x ≠ .reset) :
    t.contexts = u.contexts ∨ (∃ d, x = .push d ∧ t.contexts = u.contexts ++ [d]) ∨
      ∃ d, x = .pop d ∧ u.contexts = t.contexts ++ [d] := by
  cases h with
  | quiet _ _ _ stack => exact .inl (contexts_eq_of_stack stack)
  | enter _ _ _ stack | read stack | write _ stack | advance _ stack | leave _ _ stack =>
    exact .inl (contexts_eq_of_top stack rfl rfl)
  | @push _ _ d push =>
    exact .inr (.inl ⟨d, push, contexts_eq_append_top (f := ⟨d, .idle, 0⟩) rfl⟩)
  | @pop f _ pop stack => exact .inr (.inr ⟨f.ctx, pop, contexts_eq_append_top stack⟩)
  | reset reset => exact absurd reset hx

end

/-! ## The obligations -/

theorem step_cfg {s t : State} (h : step s = .next t) : t.cfg = s.cfg :=
  (step_effect h).cfg_eq.trans (consume_cfg s)

/-- Settles O30: no effect changes the build. -/
theorem noStepChangesTheBuild : Obligations.NoStepChangesTheBuild := fun _ _ => step_cfg

/-- Settles O31: a byte that differs was written by W, so it is one of the word's four. -/
theorem onlyWWritesStorage : Obligations.OnlyWWritesStorage := by
  intro s t a h hx hne
  have hcfg := step_cfg h
  rcases (step_effect h).mem_cases hx with hmem | ⟨hmicro, f, r, w, p, hs, hp, hmem⟩
  · rw [hmem, consume_mem] at hne
    exact absurd rfl hne
  · rw [consume_mem, consume_cfg] at hmem
    rw [consume_stack] at hs
    have hin : s.cfg.slotAddr p ≤ a ∧ a < s.cfg.slotAddr p + 4 := by
      by_contra hout
      exact hne (by rw [hmem]; exact readByte_writeWord_outside _ _ _ _ (by omega))
    exact ⟨hmicro, f, r, w, p, hs, hp, hin.1, hin.2, by rw [State.slot, hmem, hcfg, readWord_writeWord_self]⟩

/-- Settles O32: a cursor that differs was written by C. -/
theorem onlyCWritesTheCursor : Obligations.OnlyCWritesTheCursor := by
  intro s t h hx hne
  rcases (step_effect h).cursor_cases hx with hcursor | hc
  · exact absurd (by simpa using hcursor) hne
  · simpa using hc

/-- Settles O33: a mask level that differs was written by CSE or CSX; contexts that differ, by a push, a pop or a reset. -/
theorem onlyCseAndCsxChangeTheMask : Obligations.OnlyCseAndCsxChangeTheMask := by
  constructor
  · intro s t h hx hne
    rcases (step_effect h).maskLevel_cases hx with hlevel | hmask
    · exact absurd (by simpa using hlevel) hne
    · simpa using hmask
  · intro s t h hne
    have hconsume : s.consume.contexts = s.contexts := contexts_eq_of_stack (consume_stack s)
    by_cases hx : s.nextInput = .reset
    · exact .inl hx
    · have hcases := (step_effect h).contexts_cases hx
      rw [hconsume] at hcases
      exact .inr (hcases.resolve_left hne)

end Sys2Proof.Machine
end

section
/-! PROOF. The invariant: each part of it by the effects of a step, and what follows under it: it holds at reset, every append in flight
finishes, and a critical section holds masked contexts off (42_ring_writer.md R116 to R126, 60_exceptions.md R172). -/

namespace Sys2Proof.Machine

section
variable {x : Input} {u t : State} {f g : Frame} {r : List Frame}

/-! ## The stack -/

/-- The top frame may be replaced by one of the same context in a legal phase. -/
theorem stackInv_of_top (h : u.StackInv) (hu : u.stack = f :: r) (hcfg : t.cfg = u.cfg) (ht : t.stack = g :: r)
    (hctx : g.ctx = f.ctx) (hlegal : g.phase.legal u.cfg = true) : t.StackInv := by
  obtain ⟨hprio, hframes, hbottom⟩ := h
  rw [hu] at hprio hframes hbottom
  rw [List.pairwise_cons] at hprio
  rw [List.forall_mem_cons] at hframes
  refine ⟨?_, ?_, ?_⟩
  · rw [hcfg, ht, List.pairwise_cons, hctx]
    exact hprio
  · rw [hcfg, ht, List.forall_mem_cons, hctx]
    exact ⟨⟨hframes.1.1, hlegal⟩, hframes.2⟩
  · rw [ht]
    cases r with
    | nil => simpa [hctx] using hbottom
    | cons k r => simpa using hbottom

/-- A context above the running one's priority may be put on top, `Idle` (R170). -/
theorem stackInv_of_push (h : u.StackInv) (hu : u.stack = f :: r) (hcfg : t.cfg = u.cfg)
    (ht : t.stack = g :: u.stack) (hknown : g.ctx < u.cfg.prios.length) (hprio : u.cfg.prio f.ctx < u.cfg.prio g.ctx)
    (hidle : g.phase = .idle) : t.StackInv := by
  obtain ⟨hpairs, hframes, hbottom⟩ := h
  refine ⟨?_, ?_, ?_⟩
  · rw [hcfg, ht, List.pairwise_cons]
    refine ⟨fun k hk => ?_, hpairs⟩
    rw [hu] at hk hpairs
    rcases List.mem_cons.mp hk with rfl | hk
    · exact hprio
    · exact Nat.lt_trans ((List.pairwise_cons.mp hpairs).1 k hk) hprio
  · rw [hcfg, ht, List.forall_mem_cons, hidle]
    exact ⟨⟨hknown, rfl⟩, hframes⟩
  · rw [ht, hu, List.getLast?_cons_cons, ← hu]
    exact hbottom

/-- A context other than `MAIN` may be taken off the top: it is not the one at the bottom (R171). -/
theorem stackInv_of_pop (h : u.StackInv) (hu : u.stack = f :: r) (hcfg : t.cfg = u.cfg) (ht : t.stack = r)
    (hmain : f.ctx ≠ mainCtx) : t.StackInv := by
  obtain ⟨hpairs, hframes, hbottom⟩ := h
  rw [hu] at hpairs hframes hbottom
  refine ⟨?_, ?_, ?_⟩
  · rw [hcfg, ht]
    exact (List.pairwise_cons.mp hpairs).2
  · rw [hcfg, ht]
    exact (List.forall_mem_cons.mp hframes).2
  · rw [ht]
    cases r with
    | nil => exact absurd (by simpa using hbottom) hmain
    | cons k r => simpa using hbottom

/-- `MAIN` alone, as reset leaves the stack, is in a legal build a stack of contexts of `CTX`. -/
theorem stackInv_of_main (hc : t.cfg.Wf) (ht : t.stack = [⟨mainCtx, .idle, 0⟩]) : t.StackInv := by
  obtain ⟨-, -, -, hprios, -⟩ := hc
  have hknown : mainCtx < t.cfg.prios.length := by
    cases hp : t.cfg.prios with
    | nil => simp [hp] at hprios
    | cons p ps => simp
  refine ⟨?_, ?_, ?_⟩ <;> rw [ht]
  · exact List.pairwise_singleton _ _
  · simp [hknown, Phase.legal]
  · rfl

theorem Effect.stackInv (h : Effect x u t) (hinv : u.Inv) : t.StackInv := by
  have hlegal (f : Frame) (r : List Frame) (hs : u.stack = f :: r) : f.phase.legal u.cfg = true :=
    phase_legal_of_inv hinv (by simp [hs])
  obtain ⟨hc, hstack, -, ⟨-, -, hcursor⟩, -⟩ := hinv
  cases h with
  | quiet cfg _ _ stack => simpa only [State.StackInv, cfg, stack] using hstack
  | enter _ _ policy stack => exact stackInv_of_top hstack stack rfl rfl rfl (decide_eq_true policy)
  | read stack => exact stackInv_of_top hstack stack rfl rfl rfl (decide_eq_true hcursor)
  | write _ stack phase =>
    exact stackInv_of_top hstack stack rfl rfl rfl (by simpa [phase, Phase.legal] using hlegal _ _ stack)
  | advance _ stack =>
    refine stackInv_of_top hstack stack rfl rfl rfl ?_
    cases hpol : u.cfg.policy with
    | mask => exact decide_eq_true hpol
    | nomask => rfl
  | leave _ _ stack => exact stackInv_of_top hstack stack rfl rfl rfl rfl
  | push _ stack known _ prio => exact stackInv_of_push hstack stack rfl rfl known prio rfl
  | pop _ stack main => exact stackInv_of_pop hstack stack rfl rfl main
  | reset => exact stackInv_of_main hc rfl

/-! ## The mask level -/

theorem maskChain_idle (hp : f.phase = .idle) (ceiling level : Nat) :
    maskChain ceiling level (f :: r) = maskChain ceiling level r := by
  rw [maskChain, if_pos hp]

theorem maskChain_flight (hp : f.phase ≠ .idle) {ceiling level : Nat} :
    maskChain ceiling level (f :: r) = true ↔ level = max f.saved ceiling ∧ maskChain ceiling f.saved r = true := by
  rw [maskChain, if_neg hp, Bool.and_eq_true, beq_iff_eq]

/-- Within a critical section the level stays the one its context raised. -/
theorem maskChain_of_flight {ceiling level : Nat} (h : maskChain ceiling level (f :: r) = true) (hf : f.phase ≠ .idle)
    (hg : g.phase ≠ .idle) (hsaved : g.saved = f.saved) : maskChain ceiling level (g :: r) = true := by
  rw [maskChain_flight hg, hsaved]
  exact (maskChain_flight hf).mp h

/-- While an append is in flight under MASK, the level is at least the ceiling. -/
theorem ceiling_le_of_maskChain {ceiling : Nat} {l : List Frame} {level : Nat} (h : maskChain ceiling level l = true)
    (hf : f ∈ l) (hp : f.phase ≠ .idle) : ceiling ≤ level := by
  induction l with
  | nil => cases hf
  | cons k l ih =>
    by_cases hk : k.phase = .idle
    · rw [maskChain_idle hk] at h
      rcases List.mem_cons.mp hf with rfl | hf
      · exact absurd hk hp
      · exact ih h hf
    · rw [((maskChain_flight hk).mp h).1]
      exact Nat.le_max_right _ _

theorem maskInv_mask (hpol : u.cfg.policy = .mask) :
    u.MaskInv ↔ maskChain u.cfg.maskCeiling u.maskLevel u.stack = true := by
  rw [State.MaskInv, hpol]

theorem maskInv_nomask (hpol : u.cfg.policy = .nomask) : u.MaskInv ↔ u.maskLevel = 0 := by
  rw [State.MaskInv, hpol]

/-- Under NOMASK no effect but a reset touches the level, which is 0. -/
theorem Effect.maskInv_of_nomask (h : Effect x u t) (hpol : u.cfg.policy = .nomask) (hinv : u.MaskInv) : t.MaskInv := by
  rw [maskInv_nomask hpol] at hinv
  rw [maskInv_nomask (h.cfg_eq ▸ hpol)]
  by_cases hx : x = .reset
  · cases h with
    | quiet _ _ _ _ level => exact level.trans hinv
    | enter _ _ policy | leave _ policy => rw [hpol] at policy; cases policy
    | read | write | advance | push | pop => exact hinv
    | reset => rfl
  · rcases h.maskLevel_cases hx with hlevel | ⟨hmask, -⟩
    · exact hlevel.trans hinv
    · rw [hpol] at hmask
      cases hmask

/-- Under MASK the level follows the critical sections on the stack. -/
theorem Effect.maskInv_of_mask (h : Effect x u t) (hpol : u.cfg.policy = .mask) (hinv : u.MaskInv) : t.MaskInv := by
  rw [maskInv_mask hpol] at hinv
  rw [maskInv_mask (h.cfg_eq ▸ hpol)]
  cases h with
  | quiet cfg _ _ stack level => rwa [cfg, stack, level]
  | enter _ _ _ stack idle =>
    rw [stack, maskChain_idle idle] at hinv
    exact (maskChain_flight (by simp)).mpr ⟨rfl, hinv⟩
  | read stack origin =>
    rcases origin with ⟨hnomask, -⟩ | ⟨-, -, hp⟩
    · rw [hpol] at hnomask
      cases hnomask
    · rw [stack] at hinv
      exact maskChain_of_flight hinv (by simp [hp]) (by simp) rfl
  | write _ stack phase =>
    rw [stack] at hinv
    exact maskChain_of_flight hinv (by simp [phase]) (by simp) rfl
  | advance _ stack phase =>
    rw [stack] at hinv
    exact maskChain_of_flight hinv (by simp [phase]) (by rw [hpol]; simp [phaseAfterC]) rfl
  | leave _ _ stack phase =>
    rw [stack, maskChain_flight (by simp [phase])] at hinv
    exact (maskChain_idle rfl _ _).trans hinv.2
  | push => exact (maskChain_idle rfl _ _).trans hinv
  | pop _ stack _ idle => rwa [stack, maskChain_idle idle] at hinv
  | reset => exact maskChain_idle rfl _ _

theorem Effect.maskInv (h : Effect x u t) (hinv : u.MaskInv) : t.MaskInv := by
  cases hpol : u.cfg.policy with
  | mask => exact h.maskInv_of_mask hpol hinv
  | nomask => exact h.maskInv_of_nomask hpol hinv

/-! ## Storage and cursor -/

/-- A slot's word lies in the storage region. -/
theorem slotAddr_bounds {c : Config} {p a : Nat} (hp : p < c.n) (ha : c.slotAddr p ≤ a ∧ a < c.slotAddr p + 4) :
    c.storageBase ≤ a ∧ a < c.storageBase + 4 * c.n := by
  simp only [Config.slotAddr] at ha
  omega

theorem Effect.storageInv (h : Effect x u t) (hinv : u.Inv) : t.StorageInv := by
  obtain ⟨-, -, -, ⟨hwf, hregion, hcursor⟩, -⟩ := id hinv
  cases h with
  | quiet cfg mem cursor =>
    rw [State.StorageInv, cfg, mem, cursor]
    exact ⟨hwf, hregion, hcursor⟩
  | enter | read | leave | push | pop => exact ⟨hwf, hregion, hcursor⟩
  | @write f r w p _ stack phase =>
    have hp : p < u.cfg.n := read_index_lt hinv (f := f) (by simp [stack]) phase
    refine ⟨writeWord_wf hwf _ _ _, fun c hc => ?_, hcursor⟩
    rcases mem_writeWord hc with hin | hold
    · exact slotAddr_bounds hp hin
    · exact hregion c hold
  | advance => exact ⟨hwf, hregion, Nat.mod_lt _ (Nat.two_pow_pos _)⟩
  | reset => exact ⟨wf_nil, by simp, Nat.two_pow_pos _⟩

/-! ## A disabled build -/

/-- In a disabled build no append is in flight, so only pushes, pops and resets have an effect, and they keep the reset values. -/
theorem Effect.disabledInv (h : Effect x u t) (hinv : u.DisabledInv) : t.DisabledInv := by
  intro he
  rw [h.cfg_eq] at he
  have ⟨hmem, hcursor, hlevel, hidle⟩ := hinv he
  have top (f : Frame) (r : List Frame) (hs : u.stack = f :: r) : f.phase = .idle := hidle f (by simp [hs])
  cases h with
  | quiet _ mem cursor stack level => rw [mem, cursor, stack, level]; exact ⟨hmem, hcursor, hlevel, hidle⟩
  | enter _ asks => rw [appendAsked_disabled he] at asks; cases asks
  | read stack origin =>
    rcases origin with ⟨-, -, i, -, asks⟩ | ⟨-, -, hp⟩
    · rw [appendAsked_disabled he] at asks
      cases asks
    · rw [top _ _ stack] at hp
      cases hp
  | write _ stack phase | advance _ stack phase | leave _ _ stack phase => rw [top _ _ stack] at phase; cases phase
  | push => exact ⟨hmem, hcursor, hlevel, List.forall_mem_cons.mpr ⟨rfl, hidle⟩⟩
  | pop _ stack => exact ⟨hmem, hcursor, hlevel, fun f hf => hidle f (by simp [stack, hf])⟩
  | reset => exact ⟨rfl, rfl, rfl, by simp⟩

/-- EVERY EFFECT KEEPS THE INVARIANT. -/
theorem Effect.inv (h : Effect x u t) (hinv : u.Inv) : t.Inv := by
  have ⟨hcfg, _, hmask, _, hdisabled⟩ := hinv
  exact ⟨h.cfg_eq ▸ hcfg, h.stackInv hinv, h.maskInv hmask, h.storageInv hinv, h.disabledInv hdisabled⟩

end

/-! ## Steps and reset -/

theorem inv_consume {s : State} (hinv : s.Inv) : s.consume.Inv := by
  unfold State.consume
  cases s.inputs <;> exact hinv

/-- Settles O29: a step is an effect on the state once its choice is taken up, and every effect keeps the invariant. -/
theorem everyStepKeepsTheInvariant : Obligations.EveryStepKeepsTheInvariant :=
  fun _ _ hinv h => (step_effect h).inv (inv_consume hinv)

theorem microStep_inv {s : State} (hinv : s.Inv) : (microStep s).Inv := (effect_microStep s).inv hinv

/-- The invariant holds after reset in a legal build. -/
theorem resetOf_inv {c : Config} (hc : c.Wf) : (State.resetOf c).Inv := by
  refine ⟨hc, stackInv_of_main hc rfl, ?_, ⟨wf_nil, by simp [State.resetOf], Nat.two_pow_pos _⟩,
    fun _ => ⟨rfl, rfl, rfl, by simp [State.resetOf]⟩⟩
  cases hpol : c.policy with
  | mask => exact (maskInv_mask hpol).mpr (maskChain_idle rfl _ _)
  | nomask => exact (maskInv_nomask hpol).mpr rfl

/-- Settles O28: by the reset values, and the default build is legal. -/
theorem invariantHoldsAtReset : Obligations.InvariantHoldsAtReset :=
  ⟨fun _ hc => resetOf_inv hc, resetOf_inv (by decide)⟩

/-! ## Choices that are not enabled (log entry 8) -/

/-- A `micro` with no append in flight on top is work outside TFIFO. -/
theorem microStep_of_top_idle {s : State} (h : ∀ f r, s.stack = f :: r → f.phase = .idle) : microStep s = s := by
  cases hs : s.stack with
  | nil => simp [microStep, hs]
  | cons f r => simp [microStep, hs, h f r hs]

/-- Settles O26: each condition that fails is one the enabling of the push or pop asks for. -/
theorem choicesNotEnabledChangeNothing : Obligations.ChoicesNotEnabledChangeNothing := by
  refine ⟨fun s rest d hi hnot => step_push_not_enabled hi fun he => ?_,
    fun s rest d hi hnot => step_pop_not_enabled hi fun he => ?_, fun s rest hi hidle => ?_⟩
  · obtain ⟨f, r, hs⟩ := stack_cons_of_pushEnabled he
    obtain ⟨hknown, hoff, hprio, hlevel⟩ := (pushEnabled_iff hs d).mp he
    rcases hnot f r hs with h | h | h | h
    · omega
    · exact hoff h
    · omega
    · omega
  · obtain ⟨f, r, hs⟩ := stack_cons_of_popEnabled he
    obtain ⟨hctx, hmain, hp⟩ := (popEnabled_iff hs d).mp he
    rcases hnot f r hs with h | h | h
    · exact h hctx
    · exact hmain h
    · exact h hp
  · rw [step_micro hi, microStep_of_top_idle (s := { s with inputs := rest }) hidle]

/-! ## Critical sections (R172) -/

/-- Under the invariant an append in flight under MASK has raised the level to the ceiling or above. -/
theorem ceiling_le_of_flight {s : State} (hinv : s.Inv) (hpol : s.cfg.policy = .mask) {f : Frame} (hf : f ∈ s.stack)
    (hp : f.phase ≠ .idle) : s.cfg.maskCeiling ≤ s.maskLevel := by
  obtain ⟨-, -, hmask, -⟩ := hinv
  exact ceiling_le_of_maskChain ((maskInv_mask hpol).mp hmask) hf hp

/-- Settles O27: the level is at least the ceiling, so a push of a context at or below it is not enabled. -/
theorem criticalSectionHoldsMaskedContextsOff : Obligations.CriticalSectionHoldsMaskedContextsOff := by
  intro s f hinv hpol hf hp
  have hle := ceiling_le_of_flight hinv hpol hf hp
  refine ⟨hle, fun d rest hprio hi => step_push_not_enabled hi fun he => ?_⟩
  obtain ⟨g, r, hs⟩ := stack_cons_of_pushEnabled he
  obtain ⟨-, -, -, hlevel⟩ := (pushEnabled_iff hs d).mp he
  omega

/-! ## Every append in flight finishes (R122, R126) -/

theorem toGo_eq_zero_iff (p : Policy) (ph : Phase) : ph.toGo p = 0 ↔ ph = .idle := by
  cases ph <;> cases p <;> simp [Phase.toGo]

/-- A micro-step of an append in flight brings it one nearer its end, and leaves the build and the contexts below. -/
theorem microStep_progress {s : State} {f : Frame} {r : List Frame} (hlegal : f.phase.legal s.cfg = true)
    (hs : s.stack = f :: r) (hp : f.phase ≠ .idle) :
    ∃ g, (microStep s).stack = g :: r ∧ g.ctx = f.ctx ∧ g.phase.toGo s.cfg.policy + 1 = f.phase.toGo s.cfg.policy := by
  cases hph : f.phase with
  | idle => exact absurd hph hp
  | entered w =>
    have hpol : s.cfg.policy = .mask := by simpa [hph, Phase.legal] using hlegal
    rw [microStep_entered hs hph hpol, microR_cons hs]
    exact ⟨_, rfl, rfl, by simp [Phase.toGo, hpol]⟩
  | read w p =>
    rw [microStep_read hs hph, microW_cons hs]
    exact ⟨_, rfl, rfl, by cases s.cfg.policy <;> rfl⟩
  | written p =>
    rw [microStep_written hs hph, microC_cons hs]
    exact ⟨_, rfl, rfl, by cases s.cfg.policy <;> rfl⟩
  | committed =>
    have hpol : s.cfg.policy = .mask := by simpa [hph, Phase.legal] using hlegal
    rw [microStep_committed hs hph hpol, microCsx_cons hs]
    exact ⟨_, rfl, rfl, rfl⟩

/-- As many micro-steps as the running context's phase has to go leave it `Idle`. -/
theorem phaseOf_microSteps_toGo (k : Nat) {s : State} {f : Frame} {r : List Frame} (hinv : s.Inv) (hs : s.stack = f :: r)
    (hk : f.phase.toGo s.cfg.policy = k) : (microSteps k s).phaseOf f.ctx = .idle := by
  induction k generalizing s f with
  | zero => rw [microSteps, phaseOf_top s f r hs, (toGo_eq_zero_iff s.cfg.policy f.phase).mp hk]
  | succ k ih =>
    have hp : f.phase ≠ .idle := fun h => by rw [(toGo_eq_zero_iff s.cfg.policy f.phase).mpr h] at hk; omega
    obtain ⟨g, hg, hctx, htogo⟩ := microStep_progress (phase_legal_of_inv hinv (by simp [hs])) hs hp
    have hcfg : (microStep s).cfg = s.cfg := (effect_microStep s).cfg_eq
    rw [microSteps, ← hctx]
    exact ih (microStep_inv hinv) hg (by rw [hcfg]; omega)

/-- Settles O23: each micro-step brings the append one nearer its end, so those its phase has to go end it. -/
theorem everyAppendInFlightFinishes : Obligations.EveryAppendInFlightFinishes := by
  intro s rest f r hinv hs hi hp
  have hlegal := phase_legal_of_inv hinv (f := f) (by simp [hs])
  obtain ⟨g, hg, hctx, htogo⟩ := microStep_progress (s := { s with inputs := rest }) hlegal hs hp
  exact ⟨⟨_, g, step_micro hi, hg, hctx, htogo⟩, phaseOf_microSteps_toGo _ hinv hs rfl⟩

end Sys2Proof.Machine
end

section
/-! PROOF. The mask guarantee (60_exceptions.md R183): if only contexts at or below the ceiling ask for appends, at most one append is in
flight, and what it read is the cursor. -/

namespace Sys2Proof.Machine

/-! ## `soleFlight`, by the top frame -/

section
variable {cfg : Config} {cursor : Nat} {f : Frame} {r : List Frame}

theorem soleFlight_idle (hp : f.phase = .idle) :
    soleFlight cfg cursor (f :: r) = true ↔
      soleFlight cfg cursor r = true ∧ ((∀ g ∈ r, g.phase = .idle) ∨ cfg.maskCeiling < cfg.prio f.ctx) := by
  simp [soleFlight, hp]

theorem soleFlight_flight (hp : f.phase ≠ .idle) :
    soleFlight cfg cursor (f :: r) = true ↔ f.phase.current cursor = true ∧ ∀ g ∈ r, g.phase = .idle := by
  simp [soleFlight, hp]

theorem soleFlight_of_all_idle {l : List Frame} (h : ∀ g ∈ l, g.phase = .idle) : soleFlight cfg cursor l = true := by
  induction l with
  | nil => rfl
  | cons f l ih =>
    obtain ⟨hf, hl⟩ := List.forall_mem_cons.mp h
    exact (soleFlight_idle hf).mpr ⟨ih hl, .inl hl⟩

/-- The one append in flight goes on: where its context is on top, only its own phase is asked about. -/
theorem soleFlight_of_flight {cursor' : Nat} {g : Frame} (h : soleFlight cfg cursor (f :: r) = true) (hf : f.phase ≠ .idle)
    (hg : g.phase ≠ .idle) (hcurrent : g.phase.current cursor' = true) : soleFlight cfg cursor' (g :: r) = true :=
  (soleFlight_flight hg).mpr ⟨hcurrent, ((soleFlight_flight hf).mp h).2⟩

/-- The index read by the append on top is the cursor. -/
theorem read_index_current {w : Word} {p : Nat} (h : soleFlight cfg cursor (f :: r) = true) (hp : f.phase = .read w p) :
    p = cursor := by
  have hcurrent := ((soleFlight_flight (by simp [hp])).mp h).1
  rw [hp] at hcurrent
  exact eq_of_beq hcurrent

/-- The index written by the append on top is the cursor. -/
theorem written_index_current {p : Nat} (h : soleFlight cfg cursor (f :: r) = true) (hp : f.phase = .written p) :
    p = cursor := by
  have hcurrent := ((soleFlight_flight (by simp [hp])).mp h).1
  rw [hp] at hcurrent
  exact eq_of_beq hcurrent

end

/-! ## Effects -/

section
variable {x : Input} {u t : State}

/-- R183: no effect brings a second append into flight: an append is asked for by a masked context, which is on top only while no
other is in flight, and a context pushed over one in flight lies above the ceiling (R172). -/
theorem Effect.keeps_soleFlight (h : Effect x u t) (hinv : u.Inv) (hpol : u.cfg.policy = .mask)
    (hsole : soleFlight u.cfg u.cursor u.stack = true)
    (hmasked : ∀ i c w, presented u.cfg x = some i → appendAsked u.cfg i = some (c, w) →
      u.cfg.prio c ≤ u.cfg.maskCeiling) :
    soleFlight t.cfg t.cursor t.stack = true := by
  cases h with
  | quiet cfg _ cursor stack => rwa [cfg, cursor, stack]
  | enter presents asks _ stack idle =>
    rw [stack, soleFlight_idle idle] at hsole
    have hnone := hsole.2.resolve_right (Nat.not_lt.mpr (hmasked _ _ _ presents asks))
    exact (soleFlight_flight (by simp)).mpr ⟨rfl, hnone⟩
  | read stack origin =>
    rcases origin with ⟨hnomask, -⟩ | ⟨-, -, hp⟩
    · rw [hpol] at hnomask
      cases hnomask
    · rw [stack] at hsole
      exact soleFlight_of_flight hsole (by simp [hp]) (by simp) (beq_self_eq_true _)
  | write _ stack phase =>
    rw [stack] at hsole
    exact soleFlight_of_flight hsole (by simp [phase]) (by simp) (beq_iff_eq.mpr (read_index_current hsole phase))
  | advance _ stack phase =>
    rw [stack] at hsole
    rw [hpol]
    exact soleFlight_of_flight hsole (by simp [phase]) (by simp [phaseAfterC]) rfl
  | leave _ _ stack phase =>
    rw [stack, soleFlight_flight (by simp [phase])] at hsole
    exact soleFlight_of_all_idle (List.forall_mem_cons.mpr ⟨rfl, hsole.2⟩)
  | push _ _ _ _ _ level =>
    refine (soleFlight_idle rfl).mpr ⟨hsole, ?_⟩
    by_cases hnone : ∀ g ∈ u.stack, g.phase = .idle
    · exact .inl hnone
    · obtain ⟨g, hg, hp⟩ : ∃ g ∈ u.stack, g.phase ≠ .idle := by simpa using hnone
      have hle := ceiling_le_of_flight hinv hpol hg hp
      exact .inr (Nat.lt_of_le_of_lt hle level)
  | pop _ stack _ idle =>
    rw [stack, soleFlight_idle idle] at hsole
    exact hsole.1
  | reset => exact soleFlight_of_all_idle (by simp)

/-- C advances the cursor by one, from the cursor. -/
theorem Effect.cursor_of_soleFlight (h : Effect x u t) (hx : x ≠ .reset)
    (hsole : soleFlight u.cfg u.cursor u.stack = true) :
    t.cursor = u.cursor ∨ t.cursor = (u.cursor + 1) % u.cfg.n := by
  rcases h.cursor_cases hx with hcursor | ⟨-, f, r, p, hs, hp, hcursor⟩
  · exact .inl hcursor
  · rw [hs] at hsole
    rw [written_index_current hsole hp] at hcursor
    exact .inr hcursor

/-- W writes the slot the cursor names. -/
theorem Effect.mem_of_soleFlight (h : Effect x u t) (hx : x ≠ .reset)
    (hsole : soleFlight u.cfg u.cursor u.stack = true) {a : Nat} (hne : t.mem.readByte a ≠ u.mem.readByte a) :
    u.cfg.slotAddr u.cursor ≤ a ∧ a < u.cfg.slotAddr u.cursor + 4 := by
  rcases h.mem_cases hx with hmem | ⟨-, f, r, w, p, hs, hp, hmem⟩
  · exact absurd (by rw [hmem]) hne
  · rw [hs] at hsole
    rw [← read_index_current hsole hp]
    by_contra hout
    exact hne (by rw [hmem]; exact readByte_writeWord_outside _ _ _ _ (by omega))

end

/-- Settles O34: `soleFlight` at reset, and kept by the effect of the step; the cursor and the memory as the effect leaves them. -/
theorem maskedAppendsNeverOverlap : Obligations.MaskedAppendsNeverOverlap := by
  refine ⟨fun c => soleFlight_of_all_idle (by simp [State.resetOf]), fun s t hinv hpol hsole hmasked h => ?_⟩
  have heffect := step_effect h
  have hinv' := inv_consume hinv
  rw [← consume_cfg s] at hpol hmasked
  rw [← consume_cfg s, ← consume_cursor s, ← consume_stack s] at hsole
  refine ⟨heffect.keeps_soleFlight hinv' hpol hsole hmasked, fun hx => ⟨?_, fun a hne => ?_⟩⟩
  · simpa using heffect.cursor_of_soleFlight hx hsole
  · rw [← consume_mem s] at hne
    simpa using heffect.mem_of_soleFlight hx hsole hne

end Sys2Proof.Machine
end

section
/-! PROOF. Runs of given choices (00_scope.md R17), and what they leave in the ring: a list of words written one slot after the other,
modulo N (42_ring_writer.md R120, R123, R124). -/

namespace Sys2Proof.Machine

/-! ## Runs of given choices -/

/-- The choices `l`, taken up one after the other from `s`, lead to `t`, whatever choices follow them. -/
def Runs (l : List Input) (s t : State) : Prop :=
  ∀ rest, Sys2Proof.core.run l.length { s with inputs := l ++ rest } = .next { t with inputs := rest }

theorem Runs.append {l l' : List Input} {s t u : State} (h : Runs l s t) (h' : Runs l' t u) : Runs (l ++ l') s u := by
  intro rest
  rw [List.length_append, List.append_assoc, run_add (h (l' ++ rest)), h' rest]

theorem runs_nil (s : State) : Runs [] s s := fun _ => rfl

/-- A run of one choice is the step that takes it up. -/
theorem runs_single {x : Input} {s t : State}
    (h : ∀ rest, step { s with inputs := x :: rest } = .next { t with inputs := rest }) : Runs [x] s t :=
  fun rest => run_succ (h rest) 0

theorem Runs.cons {x : Input} {l : List Input} {s t u : State} (h : Runs [x] s t) (h' : Runs l t u) : Runs (x :: l) s u :=
  h.append h'

/-- The run of a state over all the choices it holds. -/
theorem Runs.runInputs {l : List Input} {s t : State} (h : Runs l s t) :
    runInputs { s with inputs := l } = .next { t with inputs := [] } := by
  have hrun := h []
  rwa [List.append_nil] at hrun

theorem run_inv {k : Nat} {s t : State} (hinv : s.Inv) (h : Sys2Proof.core.run k s = .next t) : t.Inv := by
  induction k generalizing s with
  | zero =>
    cases h
    exact hinv
  | succ k ih =>
    cases hs : step s with
    | next u =>
      rw [run_succ hs] at h
      exact ih (everyStepKeepsTheInvariant s u hinv hs) h
    | fault e => cases e
    | refused e =>
      simp only [Host.Core.run, show Sys2Proof.core.step s = .refused e from hs] at h
      cases h

theorem Runs.inv {l : List Input} {s t : State} (h : Runs l s t) (hinv : s.Inv) : t.Inv := by
  have ht : ({ t with inputs := [] } : State).Inv := run_inv (s := { s with inputs := l ++ [] }) hinv (h [])
  exact ht

/-! ## Runs of one choice -/

section
variable (s : State)

theorem runs_micro : Runs [.micro] s (microStep s) :=
  runs_single fun rest => (step_micro rfl).trans (congrArg _ (microStep_inputs s rest))

theorem runs_micros (k : Nat) : Runs (List.replicate k .micro) s (microSteps k s) := by
  induction k generalizing s with
  | zero => exact runs_nil s
  | succ k ih => exact (runs_micro s).cons (ih (microStep s))

/-- The first micro-step of an append commutes with what stands in the list of choices. -/
theorem firstMicro_inputs (w : Word) (l : List Input) :
    firstMicro w { s with inputs := l } = { firstMicro w s with inputs := l } := by
  cases hs : s.stack <;> cases hp : s.cfg.policy <;>
    simp [firstMicro, hp, microCse, microR, State.raiseMask, State.setPhase, hs]

end

section
variable {s : State}

/-- The call of an append by a context that may issue it. -/
theorem runs_call_append {c : Nat} (he : s.cfg.enable = true) (h : s.ready c) (w : Word) :
    Runs [.call (.append c true w)] s (firstMicro w s) :=
  runs_single fun rest => by
    rw [step_call rfl, ← firstMicro_inputs, ← issueAppend_ready (s := { s with inputs := rest }) h]
    exact exec_append_enabled (s := { s with inputs := rest }) he c w

theorem runs_push {d : Nat} (he : s.pushEnabled d = true) : Runs [.push d] s { s with stack := ⟨d, .idle, 0⟩ :: s.stack } :=
  runs_single fun rest => step_push_enabled (s := { s with inputs := .push d :: rest }) rfl he

theorem runs_pop {d : Nat} (he : s.popEnabled d = true) : Runs [.pop d] s { s with stack := s.stack.tail } :=
  runs_single fun rest => step_pop_enabled (s := { s with inputs := .pop d :: rest }) rfl he

theorem runs_dbgRdCursor (he : s.cfg.enable = true) : Runs [.call .dbgRdCursor] s (s.answerDebugger s.cursorWord) :=
  runs_single fun rest => by
    rw [step_call rfl]
    exact exec_dbgRdCursor_enabled (s := { s with inputs := rest }) he

theorem runs_dbgRdSlot (he : s.cfg.enable = true) {i : Nat} (hi : i < s.cfg.n) :
    Runs [.call (.dbgRdSlot i)] s (s.answerDebugger (s.slot i)) :=
  runs_single fun rest => by
    rw [step_call rfl]
    exact exec_dbgRdSlot_enabled (s := { s with inputs := rest }) he hi

end

/-! ## W and C, as runs -/

section
variable {s : State} {f : Frame} {r : List Frame} {p : Nat}

/-- W (R112): the slot read for is written. -/
theorem runs_write {w : Word} (hs : s.stack = f :: r) (hp : f.phase = .read w p) :
    ∃ t, Runs [.micro] s t ∧ t.cfg = s.cfg ∧ t.cursor = s.cursor ∧ t.dbgOut = s.dbgOut ∧
      t.stack = { f with phase := .written p } :: r ∧ t.slot = Function.update s.slot p w := by
  refine ⟨_, runs_micro s, ?_⟩
  rw [microStep_read hs hp, microW_cons hs]
  exact ⟨rfl, rfl, rfl, rfl, funext fun i => (slot_setSlot s p i w).trans (Function.update_apply s.slot p w i).symm⟩

/-- C (R113) under NOMASK: the cursor becomes the index after the one read, and the context is `Idle`. -/
theorem runs_advance (hpol : s.cfg.policy = .nomask) (hs : s.stack = f :: r) (hp : f.phase = .written p) :
    ∃ t, Runs [.micro] s t ∧ t.cfg = s.cfg ∧ t.cursor = (p + 1) % s.cfg.n ∧
      t.stack = { f with phase := .idle } :: r ∧ t.slot = s.slot := by
  refine ⟨_, runs_micro s, ?_⟩
  rw [microStep_written hs hp, microC_cons hs, hpol]
  exact ⟨rfl, rfl, rfl, rfl⟩

end

/-! ## The ring after a list of words -/

/-- The slots of a ring of `n` after `ws` went to slot `q` and the ones after it, in order. -/
def ringFill (n : Nat) : Nat → List Word → (Nat → Word) → Nat → Word
  | _, [], m => m
  | q, w :: ws, m => ringFill n (q + 1) ws (Function.update m (q % n) w)

section
variable (n : Nat)

theorem ringFill_append (ws vs : List Word) (q : Nat) (m : Nat → Word) :
    ringFill n q (ws ++ vs) m = ringFill n (q + ws.length) vs (ringFill n q ws m) := by
  induction ws generalizing q m with
  | nil => rfl
  | cons w ws ih =>
    rw [List.cons_append, ringFill, ih, ringFill, List.length_cons, show q + 1 + ws.length = q + (ws.length + 1) by omega]

/-- Where the ring starts counts modulo its size only. -/
theorem ringFill_congr {q q' : Nat} (h : q % n = q' % n) (ws : List Word) (m : Nat → Word) :
    ringFill n q ws m = ringFill n q' ws m := by
  induction ws generalizing q q' m with
  | nil => rfl
  | cons w ws ih => rw [ringFill, ringFill, h, ih (Nat.ModEq.add_right 1 h)]

/-- A slot no word went to is unchanged. -/
theorem ringFill_untouched {ws : List Word} {q i : Nat} (h : ∀ k, k < ws.length → (q + k) % n ≠ i) (m : Nat → Word) :
    ringFill n q ws m i = m i := by
  induction ws generalizing q m with
  | nil => rfl
  | cons w ws ih =>
    have hrest : ∀ k, k < ws.length → (q + 1 + k) % n ≠ i := fun k hk => by
      rw [Nat.add_assoc, Nat.add_comm 1 k]
      exact h (k + 1) (by simpa using hk)
    have hfirst : q % n ≠ i := h 0 (by simp)
    rw [ringFill, ih hrest, Function.update_of_ne hfirst.symm]

/-- Fewer than `n` slots on, a ring has not come round. -/
theorem add_mod_ne {q k : Nat} (hk : k % n ≠ 0) : (q + k) % n ≠ q % n := by
  intro h
  have hzero : k ≡ 0 [MOD n] := Nat.ModEq.add_left_cancel' q h
  exact hk (Eq.trans hzero (Nat.zero_mod n))

/-- Word `k` stands in its slot if no later word came round to it. -/
theorem ringFill_written {ws : List Word} {k : Nat} {w : Word} (hk : ws[k]? = some w) (hlast : ws.length ≤ k + n) (q : Nat)
    (m : Nat → Word) : ringFill n q ws m ((q + k) % n) = w := by
  induction ws generalizing q k m with
  | nil => simp at hk
  | cons v ws ih =>
    rw [List.length_cons] at hlast
    cases k with
    | zero =>
      obtain rfl : v = w := by simpa using hk
      rw [ringFill, ringFill_untouched, Nat.add_zero, Function.update_self]
      intro j hj
      rw [Nat.add_assoc, Nat.add_zero]
      exact add_mod_ne n (by rw [Nat.mod_eq_of_lt (by omega)]; omega)
    | succ k =>
      rw [ringFill, show q + (k + 1) = q + 1 + k by omega]
      exact ih (by simpa using hk) (by omega) (q + 1) _

end

/-! ## States with the ring filled -/

/-- `t` is `s` with the words `ws` appended: each in the slot after the one before, from the cursor on, and the cursor moved by
their number. -/
structure Fills (s : State) (ws : List Word) (t : State) : Prop where
  cfg : t.cfg = s.cfg
  level : t.maskLevel = s.maskLevel
  cursor : t.cursor = (s.cursor + ws.length) % s.cfg.n
  slot : t.slot = ringFill s.cfg.n s.cursor ws s.slot

theorem Fills.nil {s : State} (hcursor : s.cursor < s.cfg.n) : Fills s [] s :=
  ⟨rfl, rfl, (Nat.mod_eq_of_lt hcursor).symm, rfl⟩

theorem Fills.append {s t u : State} {ws vs : List Word} (h : Fills s ws t) (h' : Fills t vs u) : Fills s (ws ++ vs) u where
  cfg := h'.cfg.trans h.cfg
  level := h'.level.trans h.level
  cursor := by
    rw [h'.cursor, h.cfg, h.cursor, Nat.mod_add_mod, List.length_append, Nat.add_assoc]
  slot := by
    rw [h'.slot, h.cfg, h.slot, ringFill_append]
    exact ringFill_congr _ (by rw [h.cursor, Nat.mod_mod]) _ _

/-- One whole append is one word filled in. -/
theorem Appended.fills {s u : State} {c : Nat} {w : Word} (h : Appended s u c w) (hcursor : s.cursor < s.cfg.n) :
    Fills s [w] u := by
  obtain ⟨⟨hcfg, -⟩, hword, hnext, hframe, hlevel, -⟩ := h
  refine ⟨hcfg, hlevel, hnext, funext fun i => ?_⟩
  rw [ringFill, ringFill, Nat.mod_eq_of_lt hcursor, Function.update_apply]
  split
  · next hi => rw [hi, hword]
  · next hi =>
    simp only [Config.slotAddr] at hframe
    simp only [State.slot, Memory.readWord, Config.slotAddr, hcfg]
    rw [hframe _ (by omega), hframe _ (by omega), hframe _ (by omega), hframe _ (by omega)]

/-! ## Sequential runs -/

/-- One whole append by a context that may issue it. -/
theorem runs_appendInputs {s : State} {c : Nat} (he : s.cfg.enable = true) (h : s.ready c) (w : Word) :
    ∃ u, Runs (appendInputs s.cfg.policy c w) s u ∧ Appended s u c w :=
  ⟨_, (runs_call_append he h w).cons (runs_micros _ _), appended_microSteps h w⟩

theorem Appended.ready {s u : State} {c : Nat} {w : Word} (h : Appended s u c w) (hready : s.ready c) : u.ready c := by
  obtain ⟨⟨-, hcontexts, -⟩, -, -, -, -, hidle⟩ := h
  refine ⟨?_, hidle⟩
  obtain ⟨f, r, hs, rfl⟩ := (running_iff s c).mp hready.1
  rw [contexts_cons s f r hs] at hcontexts
  exact running_of_contexts hcontexts

/-- A sequential run fills the ring with its words, and its context may append again. -/
theorem runs_sequentialInputs {c : Nat} (ws : List Word) {s : State} (hcursor : s.cursor < s.cfg.n)
    (he : s.cfg.enable = true) (h : s.ready c) :
    ∃ t, Runs (sequentialInputs s.cfg.policy c ws) s t ∧ Fills s ws t ∧ t.ready c ∧ t.stack.tail = s.stack.tail := by
  induction ws generalizing s with
  | nil => exact ⟨s, runs_nil s, .nil hcursor, h, rfl⟩
  | cons w ws ih =>
    obtain ⟨u, hrun, happended⟩ := runs_appendInputs he h w
    obtain ⟨⟨-, -, htail, -⟩, -⟩ := id happended
    have hfills := happended.fills hcursor
    have hcursor' : u.cursor < u.cfg.n := by
      rw [hfills.cfg, hfills.cursor]
      exact Nat.mod_lt _ (Nat.two_pow_pos _)
    obtain ⟨t, hrun', hfills', hready, htail'⟩ := ih hcursor' (hfills.cfg ▸ he) (happended.ready h)
    rw [hfills.cfg] at hrun'
    exact ⟨t, hrun.append hrun', hfills.append hfills', hready, htail'.trans htail⟩

/-- Settles O35: the ring filled from the cursor on, read slot by slot. -/
theorem sequentialRunFillsTheRing : Obligations.SequentialRunFillsTheRing := by
  intro s c ws hinv he hready hi
  obtain ⟨t, hrun, hfills, ⟨-, hidle⟩, -⟩ := runs_sequentialInputs ws (cursor_lt_of_inv hinv) he hready
  rw [← hi] at hrun
  have hslot (i : Nat) : t.slot i = ringFill s.cfg.n s.cursor ws s.slot i := congrFun hfills.slot i
  exact ⟨_, hrun.runInputs, rfl, hfills.cursor, fun k w hk hlast => (hslot _).trans (ringFill_written _ hk hlast _ _),
    fun i _ hi => (hslot i).trans (ringFill_untouched _ hi _), hfills.level, hidle⟩

/-- Settles O36: the sequential run from the reset state, whose slots are 0 and whose cursor is 0. -/
theorem sequentialRunFromReset : Obligations.SequentialRunFromReset := by
  intro c ws hc he
  obtain ⟨t, hrun, -, hcursor, hwritten, huntouched, -⟩ := sequentialRunFillsTheRing
    { State.resetOf c with inputs := sequentialInputs c.policy mainCtx ws } mainCtx ws (resetOf_inv hc) he ⟨rfl, rfl⟩ rfl
  simp only [State.resetOf, Nat.zero_add] at hcursor hwritten huntouched
  refine ⟨t, hrun, hcursor, hwritten, fun i hlen hi => ?_⟩
  rw [huntouched i hi fun k hk => by rw [Nat.mod_eq_of_lt (by omega)]; omega]
  exact slot_of_mem_nil rfl i

end Sys2Proof.Machine
end

section
/-! PROOF. The debugger's byte view and byte-addressed reads (20_memory.md R40 to R42, 44_debug_port.md R158), and a read between W and
C (R160). -/

namespace Sys2Proof.Machine

/-! ## Byte-addressed reads -/

section
variable {s : State} {a : Word} {width : Nat}

theorem debugMemRead_disabled (he : s.cfg.enable = false) : debugMemRead a width s = .refused .debugDisabled := by
  simp [debugMemRead, he]

/-- An enabled 4-byte read, by where its address lies. -/
theorem debugMemRead_word (he : s.cfg.enable = true) :
    debugMemRead a 4 s =
      if s.cfg.storageBase ≤ a.toNat ∧ (a.toNat - s.cfg.storageBase) % 4 = 0 ∧
          (a.toNat - s.cfg.storageBase) / 4 < s.cfg.n then
        exec (.dbgRdSlot ((a.toNat - s.cfg.storageBase) / 4)) s
      else if a.toNat = s.cfg.cursorAddr then exec .dbgRdCursor s
      else .refused .debugAccess := by
  simp [debugMemRead, he, exec]

/-- The address of a slot names it. -/
theorem debugMemRead_slot (he : s.cfg.enable = true) {i : Nat} (hi : i < s.cfg.n) (ha : a.toNat = s.cfg.slotAddr i) :
    debugMemRead a 4 s = exec (.dbgRdSlot i) s := by
  simp only [Config.slotAddr] at ha
  have hindex : (a.toNat - s.cfg.storageBase) / 4 = i := by omega
  rw [debugMemRead_word he, hindex, if_pos ⟨by omega, by omega, hi⟩]

/-- The cursor's address is no slot's, since the two regions do not overlap (R7). -/
theorem debugMemRead_cursor (hc : s.cfg.Wf) (he : s.cfg.enable = true) (ha : a.toNat = s.cfg.cursorAddr) :
    debugMemRead a 4 s = exec .dbgRdCursor s := by
  obtain ⟨-, -, -, -, -, -, -, -, -, hapart⟩ := hc
  rw [debugMemRead_word he, if_neg (by omega), if_pos ha]

/-- Every other enabled access is refused. -/
theorem debugMemRead_refused (he : s.cfg.enable = true)
    (h : width ≠ 4 ∨ ((∀ i, i < s.cfg.n → a.toNat ≠ s.cfg.slotAddr i) ∧ a.toNat ≠ s.cfg.cursorAddr)) :
    debugMemRead a width s = .refused .debugAccess := by
  by_cases hw : width = 4
  · obtain ⟨hslot, hcursor⟩ := h.resolve_left (not_not_intro hw)
    rw [hw, debugMemRead_word he, if_neg, if_neg hcursor]
    rintro ⟨hbase, haligned, hindex⟩
    exact hslot _ hindex (by simp only [Config.slotAddr]; omega)
  · simp [debugMemRead, he, hw]

end

/-- Settles O40: the step is the debugger's access, in each of its cases. -/
theorem memReadIsTheByteAddressedSpelling : Obligations.MemReadIsTheByteAddressedSpelling := by
  intro s rest a width hc hi
  rw [step_memRead hi]
  refine ⟨fun he => debugMemRead_disabled he, fun he => ⟨fun i hin hw ha => ?_, fun hw ha => ?_, fun h => ?_⟩⟩
  · rw [hw]
    exact debugMemRead_slot (s := { s with inputs := rest }) he hin ha
  · rw [hw]
    exact debugMemRead_cursor (s := { s with inputs := rest }) hc he ha
  · exact debugMemRead_refused (s := { s with inputs := rest }) he h

/-! ## The byte view -/

/-- A word read shows the bytes it was read from. -/
theorem wordByte_readWord (e : Endian) (m : Memory) (a : Nat) {j : Nat} (hj : j < 4) :
    wordByte e (m.readWord e a) j = m.readByte (a + j) := by
  have hbytes := wordByte_wordOfBytes e (m.readByte a) (m.readByte (a + 1)) (m.readByte (a + 2)) (m.readByte (a + 3))
  simp only [wordBytes, List.cons.injEq, and_true] at hbytes
  obtain ⟨h0, h1, h2, h3⟩ := hbytes
  match j, hj with
  | 0, _ => exact h0
  | 1, _ => exact h1
  | 2, _ => exact h2
  | 3, _ => exact h3

section
variable {s : State} {a : Word}

theorem viewByte_slot {i j : Nat} (hi : i < s.cfg.n) (hj : j < 4) (ha : a.toNat = s.cfg.storageBase + 4 * i + j) :
    s.viewByte a = some (wordByte s.cfg.endian (s.slot i) j) := by
  rw [State.viewByte, if_pos (by omega), State.slot, wordByte_readWord _ _ _ hj, ha, Config.slotAddr]

theorem viewByte_cursor (hc : s.cfg.Wf) {j : Nat} (hj : j < 4) (ha : a.toNat = s.cfg.cursorAddr + j) :
    s.viewByte a = some (wordByte s.cfg.endian s.cursorWord j) := by
  obtain ⟨-, -, -, -, -, -, -, -, -, hapart⟩ := hc
  rw [State.viewByte, if_neg (by omega), if_pos (by omega), ha, Nat.add_sub_cancel_left]

theorem viewByte_elsewhere (hstorage : a.toNat < s.cfg.storageBase ∨ s.cfg.storageBase + 4 * s.cfg.n ≤ a.toNat)
    (hcursor : a.toNat < s.cfg.cursorAddr ∨ s.cfg.cursorAddr + 4 ≤ a.toNat) : s.viewByte a = none := by
  rw [State.viewByte, if_neg (by omega), if_neg (by omega)]

end

theorem exists_address {n : Nat} (hn : n < 2 ^ 32) : ∃ a : Word, a.toNat = n :=
  ⟨BitVec.ofNat 32 n, by rw [BitVec.toNat_ofNat, Nat.mod_eq_of_lt hn]⟩

/-- Settles O41: the view by region; both regions lie below `2 ^ 32` by the legality of the build. -/
theorem byteViewShowsSlotsAndCursor : Obligations.ByteViewShowsSlotsAndCursor := by
  refine ⟨fun s hc => ⟨fun a i j hi hj ha => viewByte_slot hi hj ha, fun a j hj ha => viewByte_cursor hc hj ha,
    fun a hstorage hcursor => viewByte_elsewhere hstorage hcursor, fun i j hi hj => exists_address ?_,
    fun hk j hj => exists_address ?_⟩, fun w j _ => ⟨rfl, rfl⟩⟩
  · obtain ⟨-, -, -, -, -, -, hstorage, -⟩ := hc
    omega
  · obtain ⟨-, -, -, -, -, -, -, -, hcursor, -⟩ := hc
    have := hcursor hk
    omega

/-! ## A read between W and C -/

/-- Settles O42: W puts the word in the slot and leaves the cursor, which the two reads then hand over. -/
theorem debuggerSeesTheNewestWordAtTheCursor : Obligations.DebuggerSeesTheNewestWordAtTheCursor := by
  intro s f r w hinv he hs hp hi
  obtain ⟨t, hwrite, hcfg, hcursor, hout, -, hslot⟩ := runs_write hs hp
  have hreadCursor := runs_dbgRdCursor (s := t) (hcfg ▸ he)
  have hin : s.cursor < (t.answerDebugger t.cursorWord).cfg.n := by
    rw [answerDebugger_cfg, hcfg]
    exact cursor_lt_of_inv hinv
  have hreadSlot := runs_dbgRdSlot (s := t.answerDebugger t.cursorWord) (hcfg ▸ he) hin
  have hrun := (hwrite.cons (hreadCursor.cons hreadSlot)).runInputs
  rw [← hi] at hrun
  have hword : t.slot s.cursor = w := by rw [hslot, Function.update_self]
  refine ⟨_, hrun, ?_⟩
  change t.slot s.cursor :: BitVec.ofNat 32 t.cursor :: t.dbgOut = _
  rw [hword, hcursor, hout]

end Sys2Proof.Machine
end

section
/-! PROOF. Preemption of an append under NOMASK (42_ring_writer.md R120): visits fill the ring and give the stack back, and the preempted
append's W and C then go by the index it read. -/

namespace Sys2Proof.Machine

/-! ## Visits -/

/-- In a legal build `MAIN` has priority 0 (R168). -/
theorem prio_main {c : Config} (hc : c.Wf) : c.prio mainCtx = 0 := by
  obtain ⟨-, -, -, hmain, -⟩ := hc
  cases hp : c.prios with
  | nil => simp [hp] at hmain
  | cons p ps => simpa [Config.prio, hp] using hmain

/-- Under NOMASK only the stack and the priorities hold a push off: the mask level is 0. -/
theorem pushEnabled_nomask {s : State} {f : Frame} {r : List Frame} {d : Nat} (hinv : s.Inv) (hpol : s.cfg.policy = .nomask)
    (hs : s.stack = f :: r) (hknown : d < s.cfg.prios.length) (hoff : d ∉ s.contexts)
    (hprio : s.cfg.prio f.ctx < s.cfg.prio d) : s.pushEnabled d = true := by
  obtain ⟨-, -, hmask, -⟩ := hinv
  have hlevel := (maskInv_nomask hpol).mp hmask
  exact (pushEnabled_iff hs d).mpr ⟨hknown, hoff, hprio, by omega⟩

/-- Which contexts may preempt depends on the build and the contexts on the stack alone. -/
theorem MayPreempt.congr {s t : State} {c : Nat} {vs : List (Nat × List Word)} (h : MayPreempt s c vs)
    (hcfg : t.cfg = s.cfg) (hcontexts : t.contexts = s.contexts) : MayPreempt t c vs := by
  rwa [MayPreempt, hcfg, hcontexts]

section
variable {s : State} {f : Frame} {r : List Frame} (hinv : s.Inv) (hpol : s.cfg.policy = .nomask)
  (he : s.cfg.enable = true) (hs : s.stack = f :: r)

include hinv hpol he hs

/-- A visit fills in its words and gives the stack back as it was (R120, R176). -/
theorem runs_visit {d : Nat} (ys : List Word) (hknown : d < s.cfg.prios.length) (hoff : d ∉ s.contexts)
    (hprio : s.cfg.prio f.ctx < s.cfg.prio d) :
    ∃ t, Runs (visit d ys) s t ∧ Fills s ys t ∧ t.stack = s.stack := by
  have hmain : d ≠ mainCtx := by
    rintro rfl
    rw [prio_main hinv.1] at hprio
    omega
  have hpush := runs_push (pushEnabled_nomask hinv hpol hs hknown hoff hprio)
  have hcursor := cursor_lt_of_inv hinv
  obtain ⟨v, happends, hfills, hready, htail⟩ := runs_sequentialInputs (c := d) ys
    (s := { s with stack := ⟨d, .idle, 0⟩ :: s.stack }) hcursor he ((ready_iff _ d).mpr ⟨_, _, rfl, rfl, rfl⟩)
  rw [hpol] at happends
  obtain ⟨g, r', hv, hctx, hidle⟩ := (ready_iff v d).mp hready
  have hpop := runs_pop ((popEnabled_iff hv d).mpr ⟨hctx, hmain, hidle⟩)
  exact ⟨_, (hpush.cons happends).append hpop, ⟨hfills.cfg, hfills.level, hfills.cursor, hfills.slot⟩, htail⟩

/-- Visits one after the other fill in all their words, in order. -/
theorem runs_visits (vs : List (Nat × List Word)) (hvs : MayPreempt s f.ctx vs) :
    ∃ t, Runs (visits vs) s t ∧ Fills s (visitWords vs) t ∧ t.stack = s.stack := by
  induction vs generalizing s with
  | nil => exact ⟨s, runs_nil s, .nil (cursor_lt_of_inv hinv), rfl⟩
  | cons v vs ih =>
    obtain ⟨⟨hknown, hoff, hprio⟩, hrest⟩ := List.forall_mem_cons.mp hvs
    obtain ⟨t, hrun, hfills, hstack⟩ := runs_visit hinv hpol he hs v.2 hknown hoff hprio
    have hrest' : MayPreempt t f.ctx vs := MayPreempt.congr hrest hfills.cfg (contexts_eq_of_stack hstack)
    obtain ⟨u, hrun', hfills', hstack'⟩ :=
      ih (hrun.inv hinv) (hfills.cfg ▸ hpol) (hfills.cfg ▸ he) (hstack.trans hs) hrest'
    exact ⟨u, hrun.append hrun', hfills.append hfills', hstack'.trans hstack⟩

/-- The call of an append under NOMASK: R, which reads the cursor and leaves the ring (log entry 9). -/
theorem runs_call_nomask (hidle : f.phase = .idle) (x : Word) :
    ∃ t, Runs [.call (.append f.ctx true x)] s t ∧ Fills s [] t ∧ t.contexts = s.contexts ∧
      t.stack = { f with phase := .read x s.cursor } :: r := by
  have hcall := runs_call_append he ((ready_iff s f.ctx).mpr ⟨f, r, hs, rfl, hidle⟩) x
  have hfirst : firstMicro x s = { s with stack := { f with phase := .read x s.cursor } :: r } := by
    rw [firstMicro, hpol]
    exact microR_cons hs x
  rw [hfirst] at hcall
  have hnil := Fills.nil (cursor_lt_of_inv hinv)
  exact ⟨_, hcall, ⟨rfl, rfl, hnil.cursor, rfl⟩, contexts_eq_of_top hs rfl rfl, rfl⟩

/-- The call of an append, and visits before its W. -/
theorem runs_call_visits (hidle : f.phase = .idle) (x : Word) {vs : List (Nat × List Word)} (hvs : MayPreempt s f.ctx vs) :
    ∃ t, Runs (.call (.append f.ctx true x) :: visits vs) s t ∧ Fills s (visitWords vs) t ∧ t.contexts = s.contexts ∧
      t.stack = { f with phase := .read x s.cursor } :: r := by
  obtain ⟨t, hcall, hnone, hcontexts, hstack⟩ := runs_call_nomask hinv hpol he hs hidle x
  obtain ⟨u, hvisits, hfills, hstack'⟩ := runs_visits (hcall.inv hinv) (hnone.cfg ▸ hpol) (hnone.cfg ▸ he) hstack vs
    (hvs.congr hnone.cfg hcontexts)
  exact ⟨u, hcall.cons hvisits, hnone.append hfills, (contexts_eq_of_stack hstack').trans hcontexts, hstack'.trans hstack⟩

/-- The call of an append, visits before its W, and the W: slot `cursor` holds its word. -/
theorem runs_call_visits_write (hidle : f.phase = .idle) (x : Word) {vs : List (Nat × List Word)}
    (hvs : MayPreempt s f.ctx vs) :
    ∃ t, Runs (.call (.append f.ctx true x) :: (visits vs ++ [.micro])) s t ∧ t.cfg = s.cfg ∧ t.contexts = s.contexts ∧
      t.cursor = (s.cursor + (visitWords vs).length) % s.cfg.n ∧
      t.stack = { f with phase := .written s.cursor } :: r ∧
      t.slot = Function.update (ringFill s.cfg.n s.cursor (visitWords vs) s.slot) s.cursor x := by
  obtain ⟨t, hrun, hfills, hcontexts, hstack⟩ := runs_call_visits hinv hpol he hs hidle x hvs
  obtain ⟨u, hwrite, hcfg, hcursor, -, hstack', hslot⟩ := runs_write hstack rfl
  exact ⟨u, hrun.append hwrite, hcfg.trans hfills.cfg, (contexts_eq_of_top hstack hstack' rfl).trans hcontexts,
    hcursor.trans hfills.cursor, hstack', by rw [hslot, hfills.slot]⟩

/-- An append preempted by visits `vs` between its R and W and by visits `us` between its W and C: the cursor is the index after the one
it read, and its word stands in slot `cursor` unless one of `us` overwrote it (R120). -/
theorem runs_preempted_append (hidle : f.phase = .idle) (x : Word) {vs us : List (Nat × List Word)}
    (hvs : MayPreempt s f.ctx vs) (hus : MayPreempt s f.ctx us) :
    ∃ t, Runs (.call (.append f.ctx true x) :: (visits vs ++ .micro :: (visits us ++ [.micro]))) s t ∧
      t.cursor = (s.cursor + 1) % s.cfg.n ∧
      t.slot = ringFill s.cfg.n (s.cursor + (visitWords vs).length) (visitWords us)
        (Function.update (ringFill s.cfg.n s.cursor (visitWords vs) s.slot) s.cursor x) := by
  obtain ⟨t, hrun, hcfg, hcontexts, hcursor, hstack, hslot⟩ := runs_call_visits_write hinv hpol he hs hidle x hvs
  obtain ⟨u, hvisits, hfills, hstack'⟩ := runs_visits (hrun.inv hinv) (hcfg ▸ hpol) (hcfg ▸ he) hstack us
    (hus.congr hcfg hcontexts)
  have hcfg' : u.cfg = s.cfg := hfills.cfg.trans hcfg
  obtain ⟨v, hadvance, -, hcursor', -, hslot'⟩ := runs_advance (hcfg' ▸ hpol) (hstack'.trans hstack) rfl
  have hall := (hrun.append hvisits).append hadvance
  refine ⟨v, by simpa using hall, by rw [hcursor', hcfg'], ?_⟩
  rw [hslot', hfills.slot, hcfg, hslot]
  exact ringFill_congr _ (by rw [hcursor, Nat.mod_mod]) _ _

end

/-- Settles O38: an append preempted, with no visit after its W, or with visits on both sides of it. -/
theorem repeatedPreemptionMovesTheCursorBack : Obligations.RepeatedPreemptionMovesTheCursorBack := by
  intro s c x vs us hinv hpol he hready hvs hus
  obtain ⟨f, r, hs, rfl, hidle⟩ := (ready_iff s c).mp hready
  have hcursor := cursor_lt_of_inv hinv
  obtain ⟨t, hcall, hfills, -⟩ := runs_call_visits hinv hpol he hs hidle x hvs
  obtain ⟨u, hbefore, hcursorU, hslotU⟩ := runs_preempted_append hinv hpol he hs hidle x hvs (us := []) (by simp [MayPreempt])
  obtain ⟨v, hboth, hcursorV, -⟩ := runs_preempted_append hinv hpol he hs hidle x hvs hus
  refine ⟨⟨_, hcall.runInputs, hfills.cursor⟩, ⟨_, hbefore.runInputs, hcursorU, ?_, fun k y hk hlast hne => ?_⟩,
    ⟨_, hboth.runInputs, hcursorV⟩⟩
  · exact (congrFun hslotU s.cursor).trans (Function.update_self ..)
  · have happart : (s.cursor + k) % s.cfg.n ≠ s.cursor := by
      have h := add_mod_ne s.cfg.n (q := s.cursor) hne
      rwa [Nat.mod_eq_of_lt hcursor] at h
    exact (congrFun hslotU _).trans ((Function.update_of_ne happart ..).trans (ringFill_written _ hk hlast _ _))

/-! ## One preemption -/

theorem ringFill_one {n q : Nat} (hq : q < n) (y : Word) (m : Nat → Word) : ringFill n q [y] m = Function.update m q y := by
  rw [ringFill, ringFill, Nat.mod_eq_of_lt hq]

theorem ringFill_two {n q : Nat} (hq : q < n) (y x : Word) (m : Nat → Word) (i : Nat) :
    ringFill n q [y, x] m i = if i = (q + 1) % n then x else if i = q then y else m i := by
  rw [ringFill, ringFill, ringFill, Nat.mod_eq_of_lt hq, Function.update_apply, Function.update_apply]

/-- Settles O37: the preemption as one visit, before R, between R and W, between W and C, and after C. -/
theorem onePreemptionUnderNomaskHasTheseOutcomes : Obligations.OnePreemptionUnderNomaskHasTheseOutcomes := by
  intro s c d x y hinv hpol he hready hknown hoff hprio
  obtain ⟨f, r, hs, rfl, hidle⟩ := (ready_iff s c).mp hready
  have hcursor := cursor_lt_of_inv hinv
  have hone : MayPreempt s f.ctx [(d, [y])] := List.forall_mem_singleton.mpr ⟨hknown, hoff, hprio⟩
  have hnone : MayPreempt s f.ctx [] := by simp [MayPreempt]
  have hvisits : visits [(d, [y])] = visit d [y] := by simp [visits]
  refine ⟨?_, ?_, ?_, ?_⟩
  · obtain ⟨t, hvisit, hfills, hstack⟩ := runs_visit hinv hpol he hs [y] hknown hoff hprio
    have hreadyT : t.ready f.ctx := (ready_iff t f.ctx).mpr ⟨f, r, hstack.trans hs, rfl, hidle⟩
    obtain ⟨u, happend, happended⟩ := runs_appendInputs (hfills.cfg ▸ he) hreadyT x
    have hfills' := hfills.append (happended.fills (cursor_lt_of_inv (hvisit.inv hinv)))
    rw [hfills.cfg, hpol] at happend
    exact ⟨_, (hvisit.append happend).runInputs, fun i => (congrFun hfills'.slot i).trans (ringFill_two hcursor ..),
      hfills'.cursor⟩
  · obtain ⟨t, hrun, hnext, hslot⟩ := runs_preempted_append hinv hpol he hs hidle x hone hnone
    rw [hvisits] at hrun
    refine ⟨_, hrun.runInputs, fun i => (congrFun hslot i).trans ?_, hnext⟩
    change Function.update (ringFill s.cfg.n s.cursor [y] s.slot) s.cursor x i = _
    rw [ringFill_one hcursor, Function.update_idem, Function.update_apply]
  · obtain ⟨t, hrun, hnext, hslot⟩ := runs_preempted_append hinv hpol he hs hidle x hnone hone
    rw [hvisits] at hrun
    refine ⟨_, hrun.runInputs, fun i => (congrFun hslot i).trans ?_, hnext⟩
    change ringFill s.cfg.n s.cursor [y] (Function.update s.slot s.cursor x) i = _
    rw [ringFill_one hcursor, Function.update_idem, Function.update_apply]
  · obtain ⟨t, happend, happended⟩ := runs_appendInputs he hready x
    obtain ⟨⟨hcfg, hcontexts, -⟩, -⟩ := id happended
    obtain ⟨g, r', ht, hctx, -⟩ := (ready_iff t f.ctx).mp (happended.ready hready)
    obtain ⟨u, hvisit, hfills, -⟩ := runs_visit (happend.inv hinv) (hcfg ▸ hpol) (hcfg ▸ he) ht [y] (hcfg ▸ hknown)
      (hcontexts ▸ hoff) (by rw [hcfg, hctx]; exact hprio)
    have hfills' := (happended.fills hcursor).append hfills
    rw [hpol] at happend
    exact ⟨_, (happend.append hvisit).runInputs, fun i => (congrFun hfills'.slot i).trans (ringFill_two hcursor ..),
      hfills'.cursor⟩

end Sys2Proof.Machine
end

section
/-! PROOF. Any schedule and fair runs (60_exceptions.md R170, R171, R184): an append in flight moves by its own context's micro-steps alone,
keeps the word and the index it read, and in a fair run comes to its end. -/

namespace Sys2Proof.Machine

/-! ## What moves a phase -/

section
variable {x : Input} {u t : State} {c : Nat}

/-- A context off the stack is `Idle` (R177). -/
theorem phaseOf_of_not_mem (h : c ∉ u.contexts) : u.phaseOf c = .idle := by
  have hnone : u.stack.find? (fun f => f.ctx == c) = none := by
    simpa [State.contexts] using h
  rw [State.phaseOf, hnone]

theorem phaseOf_eq_of_stack (h : t.stack = u.stack) (c : Nat) : t.phaseOf c = u.phaseOf c := by
  rw [State.phaseOf, State.phaseOf, h]

section
variable {f : Frame} {r : List Frame} {ph : Phase} {saved : Nat} (hu : u.stack = f :: r)
  (ht : t.stack = ⟨f.ctx, ph, saved⟩ :: r)

include hu ht

/-- What the running context does leaves every other context's phase. -/
theorem phaseOf_of_top_ne (hc : f.ctx ≠ c) : t.phaseOf c = u.phaseOf c := phaseOf_below hu ht rfl hc

theorem phaseOf_of_top_micro (hx : x = .micro) (c : Nat) :
    t.phaseOf c = u.phaseOf c ∨ (x = .micro ∧ u.running c = true) := by
  by_cases hc : f.ctx = c
  · exact .inr ⟨hx, (running_iff u c).mpr ⟨f, r, hu, hc⟩⟩
  · exact .inl (phaseOf_of_top_ne hu ht hc)

end

/-- No effect but a reset moves an append in flight, unless it is its own context's micro-step. -/
theorem Effect.phaseOf_cases (h : Effect x u t) (hx : x ≠ .reset) (hp : u.phaseOf c ≠ .idle) :
    t.phaseOf c = u.phaseOf c ∨ (x = .micro ∧ u.running c = true) := by
  have apart {f : Frame} {r : List Frame} (hs : u.stack = f :: r) (hidle : f.phase = .idle) : f.ctx ≠ c := by
    rintro rfl
    exact hp ((phaseOf_top u f r hs).trans hidle)
  cases h with
  | quiet _ _ _ stack => exact .inl (phaseOf_eq_of_stack stack c)
  | enter _ _ _ stack idle => exact .inl (phaseOf_of_top_ne stack rfl (apart stack idle))
  | read stack origin =>
    rcases origin with ⟨-, idle, -⟩ | ⟨micro, -⟩
    · exact .inl (phaseOf_of_top_ne stack rfl (apart stack idle))
    · exact phaseOf_of_top_micro stack rfl micro c
  | write micro stack => exact phaseOf_of_top_micro stack rfl micro c
  | advance micro stack => exact phaseOf_of_top_micro stack rfl micro c
  | leave micro _ stack => exact phaseOf_of_top_micro stack rfl micro c
  | @push _ _ d _ _ _ off =>
    have hc : c ≠ d := by
      rintro rfl
      exact hp (phaseOf_of_not_mem off)
    exact .inl (phaseOf_eq_of_ne_top (f := ⟨d, .idle, 0⟩) rfl hc)
  | pop _ stack _ idle => exact .inl (phaseOf_eq_of_ne_top stack (apart stack idle).symm).symm
  | reset reset => exact absurd reset hx

end

/-! ## The micro-step of a running context, by its phase -/

section
variable {s : State} {c q : Nat} {x : Word}

/-- The running context's frame, with the phase it is in. -/
theorem top_of_running (h : s.running c = true) : ∃ f r, s.stack = f :: r ∧ f.ctx = c ∧ f.phase = s.phaseOf c := by
  obtain ⟨f, r, hs, rfl⟩ := (running_iff s c).mp h
  exact ⟨f, r, hs, rfl, (phaseOf_top s f r hs).symm⟩

theorem microStep_of_read (h : s.running c = true) (hp : s.phaseOf c = .read x q) :
    (microStep s).slot q = x ∧ (microStep s).phaseOf c = .written q := by
  obtain ⟨f, r, hs, rfl, hph⟩ := top_of_running h
  rw [microStep_read hs (hph.trans hp), microW_cons hs]
  exact ⟨readWord_writeWord_self _ _ _ _, phaseOf_top _ ⟨f.ctx, .written q, f.saved⟩ r rfl⟩

theorem microStep_of_written (h : s.running c = true) (hp : s.phaseOf c = .written q) :
    (microStep s).cursor = (q + 1) % s.cfg.n ∧ (microStep s).phaseOf c = phaseAfterC s.cfg.policy := by
  obtain ⟨f, r, hs, rfl, hph⟩ := top_of_running h
  rw [microStep_written hs (hph.trans hp), microC_cons hs]
  exact ⟨rfl, phaseOf_top _ ⟨f.ctx, phaseAfterC s.cfg.policy, f.saved⟩ r rfl⟩

theorem microStep_of_committed (hpol : s.cfg.policy = .mask) (h : s.running c = true) (hp : s.phaseOf c = .committed) :
    (microStep s).phaseOf c = .idle := by
  obtain ⟨f, r, hs, rfl, hph⟩ := top_of_running h
  rw [microStep_committed hs (hph.trans hp) hpol, microCsx_cons hs]
  exact phaseOf_top _ ⟨f.ctx, .idle, f.saved⟩ r rfl

end

/-! ## One choice presented -/

section
variable {s t : State} {x : Input}

theorem effect_of_present (h : step (s.present x) = .next t) : Effect x { s with inputs := [] } t := step_effect h

theorem step_present_micro (s : State) : step (s.present .micro) = .next (microStep { s with inputs := [] }) :=
  step_present s .micro

theorem present_inv (hinv : s.Inv) (h : step (s.present x) = .next t) : t.Inv :=
  everyStepKeepsTheInvariant (s.present x) t hinv h

end

/-! ## The word and the index read are kept -/

/-- From its R on, `c`'s append of `x` is about to write slot `q`, about to advance from `q`, or about to leave its critical section. -/
def KeepsIndex (s : State) (c q : Nat) (x : Word) : Prop :=
  s.phaseOf c = .read x q ∨ s.phaseOf c = .written q ∨ (s.phaseOf c = .committed ∧ s.cfg.policy = .mask)

theorem KeepsIndex.micro {s : State} {c q : Nat} {x : Word} (h : KeepsIndex s c q x) (hrun : s.running c = true)
    (hp : (microStep s).phaseOf c ≠ .idle) : KeepsIndex (microStep s) c q x := by
  have hcfg : (microStep s).cfg = s.cfg := (effect_microStep s).cfg_eq
  rcases h with hread | hwritten | ⟨hcommitted, hpol⟩
  · exact .inr (.inl (microStep_of_read hrun hread).2)
  · have hafter := (microStep_of_written hrun hwritten).2
    cases hpol : s.cfg.policy with
    | mask =>
      rw [hpol] at hafter
      exact .inr (.inr ⟨hafter, hcfg ▸ hpol⟩)
    | nomask =>
      rw [hpol] at hafter
      exact absurd hafter hp
  · exact absurd (microStep_of_committed hpol hrun hcommitted) hp

theorem KeepsIndex.present {s t : State} {y : Input} {c q : Nat} {x : Word} (h : KeepsIndex s c q x) (hy : y ≠ .reset)
    (hstep : step (s.present y) = .next t) (hs : s.phaseOf c ≠ .idle) (ht : t.phaseOf c ≠ .idle) : KeepsIndex t c q x := by
  have heffect := effect_of_present hstep
  rcases heffect.phaseOf_cases hy hs with hsame | ⟨rfl, hrun⟩
  · rw [KeepsIndex, hsame, heffect.cfg_eq]
    exact h
  · rw [step_present_micro] at hstep
    cases hstep
    exact KeepsIndex.micro (s := { s with inputs := [] }) h hrun ht

/-- Settles O43: a step by its effect; a run without a reset by induction on its length. -/
theorem preemptedAppendKeepsTheIndexItRead : Obligations.PreemptedAppendKeepsTheIndexItRead := by
  constructor
  · intro s t c h hx hp hne
    have hconsume : s.consume.phaseOf c = s.phaseOf c := phaseOf_eq_of_stack (consume_stack s) c
    have hrunning : s.consume.running c = s.running c := by simp [State.running]
    rw [← hconsume] at hp hne
    rw [← hrunning]
    exact ((step_effect h).phaseOf_cases hx hp).resolve_left hne
  · intro σ r n c q x hrun hreset hstart hflight
    have hkeeps : KeepsIndex (r n) c q x := by
      induction n with
      | zero => exact .inl hstart
      | succ n ih =>
        have hprev := ih (fun k hk => hrun k (by omega)) (fun k hk => hreset k (by omega)) fun k hk => hflight k (by omega)
        exact hprev.present (hreset n (by omega)) (hrun n (by omega)) (hflight n (by omega)) (hflight (n + 1) le_rfl)
    rcases hkeeps with hread | hwritten | hcommitted
    · exact .inl ⟨hread, fun htop =>
        ⟨_, step_present_micro _, microStep_of_read (s := { r n with inputs := [] }) htop hread⟩⟩
    · exact .inr (.inl ⟨hwritten, fun htop =>
        ⟨_, step_present_micro _, (microStep_of_written (s := { r n with inputs := [] }) htop hwritten).1⟩⟩)
    · exact .inr (.inr hcommitted)

/-! ## Fair runs -/

/-- The contexts on the stack are in rising priority from `MAIN` (R169). -/
theorem contexts_prio_rising {s : State} (hinv : s.Inv) : s.contexts.Pairwise fun a b => s.cfg.prio a < s.cfg.prio b := by
  obtain ⟨-, ⟨hpairs, -⟩, -⟩ := hinv
  rw [State.contexts, List.pairwise_reverse, List.pairwise_map]
  exact hpairs

/-- A context in flight that is not the running one has another just above it, which is not `MAIN`. -/
theorem exists_above_of_not_running {s : State} {c : Nat} (hinv : s.Inv) (hp : s.phaseOf c ≠ .idle)
    (hrun : ¬ s.running c = true) : ∃ pre d, pre ++ [c, d] <+: s.contexts ∧ d ≠ mainCtx := by
  have hmem : c ∈ s.contexts := by
    by_contra hoff
    exact hp (phaseOf_of_not_mem hoff)
  obtain ⟨pre, post, hsplit⟩ := List.append_of_mem hmem
  cases post with
  | nil => exact absurd (running_of_contexts hsplit) hrun
  | cons d post =>
    refine ⟨pre, d, ⟨post, by simp [hsplit]⟩, ?_⟩
    rintro rfl
    have hpairs := contexts_prio_rising hinv
    rw [hsplit, List.pairwise_append] at hpairs
    obtain ⟨-, habove, -⟩ := hpairs
    have hlt := (List.pairwise_cons.mp habove).1 mainCtx (by simp)
    rw [prio_main hinv.1] at hlt
    omega

/-- No step but a reset takes a context off the stack from between two others: the one just above `c` stays, or `c` is then the
running one. -/
theorem Effect.above_stays {x : Input} {u t : State} {c d : Nat} {pre : List Nat} (h : Effect x u t) (hx : x ≠ .reset)
    (habove : pre ++ [c, d] <+: u.contexts) : pre ++ [c, d] <+: t.contexts ∨ t.running c = true := by
  rcases h.contexts_cases hx with hsame | ⟨e, -, hpush⟩ | ⟨e, -, hpop⟩
  · exact .inl (hsame ▸ habove)
  · exact .inl (hpush ▸ habove.trans (List.prefix_append _ _))
  · rw [hpop, List.prefix_concat_iff] at habove
    rcases habove with heq | hshorter
    · rw [show pre ++ [c, d] = (pre ++ [c]) ++ [d] by simp] at heq
      exact .inr (running_of_contexts (List.append_inj' heq rfl).1.symm)
    · exact .inl hshorter

section
variable {σ : Nat → Input} {r : Nat → State} (hstart : (r 0).Inv) (hrun : Run σ r)

include hrun

theorem run_step (n : Nat) : step ((r n).present (σ n)) = .next (r (n + 1)) := hrun (n + 1) n (Nat.lt_succ_self n)

theorem run_cfg (n : Nat) : (r n).cfg = (r 0).cfg := by
  induction n with
  | zero => rfl
  | succ n ih => exact (effect_of_present (run_step hrun n)).cfg_eq.trans ih

/-- What a run does to an append in flight at each choice: nothing, unless it is a reset or the context's own micro-step. -/
theorem run_phaseOf_eq {c k : Nat} (hp : (r k).phaseOf c ≠ .idle)
    (hk : ¬(σ k = .reset ∨ (σ k = .micro ∧ (r k).running c = true))) : (r (k + 1)).phaseOf c = (r k).phaseOf c := by
  rw [not_or] at hk
  exact ((effect_of_present (run_step hrun k)).phaseOf_cases hk.1 hp).resolve_right hk.2

/-- Until the first reset or micro-step of its context, an append in flight stays where it is. -/
theorem run_phaseOf_until {c n m : Nat} (hp : (r n).phaseOf c ≠ .idle)
    (hnone : ∀ k, n ≤ k → k < m → ¬(σ k = .reset ∨ (σ k = .micro ∧ (r k).running c = true))) {k : Nat} (hk : n ≤ k)
    (hm : k ≤ m) : (r k).phaseOf c = (r n).phaseOf c := by
  induction k, hk using Nat.le_induction with
  | base => rfl
  | succ k hk ih =>
    have hprev := ih (by omega)
    rw [run_phaseOf_eq hrun (hprev ▸ hp) (hnone k hk (by omega)), hprev]

/-- A reset abandons every append (R190). -/
theorem run_reset_idle {k : Nat} (hreset : σ k = .reset) (c : Nat) : (r (k + 1)).phaseOf c = .idle := by
  have hstep := run_step hrun k
  rw [hreset, step_present] at hstep
  have hnext : r (k + 1) = State.restart { r k with inputs := [] } := (Host.Outcome.next.inj hstep).symm
  obtain ⟨-, -, hidle, -⟩ := restart_atReset { r k with inputs := [] }
  rw [hnext]
  exact hidle c

include hstart

theorem run_states_inv (n : Nat) : (r n).Inv := by
  induction n with
  | zero => exact hstart
  | succ n ih => exact present_inv ih (run_step hrun n)

/-- R184: in a fair run a context with an append in flight takes its next micro-step, or a reset comes. Otherwise the context never is
on top, so the one just above it never returns. -/
theorem exists_micro_or_reset (hfair : Fair σ r) {c n : Nat} (hp : (r n).phaseOf c ≠ .idle) :
    ∃ m, n ≤ m ∧ (σ m = .reset ∨ (σ m = .micro ∧ (r m).running c = true)) := by
  obtain ⟨hreturn, hgoes⟩ := hfair
  by_contra hnever
  have hnone (k : Nat) (hk : n ≤ k) : ¬(σ k = .reset ∨ (σ k = .micro ∧ (r k).running c = true)) :=
    fun h => hnever ⟨k, hk, h⟩
  have hwaits (k : Nat) (hk : n ≤ k) : ¬ (r k).running c = true := fun htop => by
    have hflight : (r k).phaseOf c ≠ .idle := by
      rw [run_phaseOf_until hrun hp (fun j hj _ => hnone j hj) hk le_rfl]
      exact hp
    obtain ⟨m, hm, h⟩ := hgoes k c htop hflight
    exact hnever ⟨m, hk.trans hm, h⟩
  obtain ⟨pre, d, habove, hmain⟩ := exists_above_of_not_running (run_states_inv hstart hrun n) hp (hwaits n le_rfl)
  have hstays (k : Nat) (hk : n ≤ k) : pre ++ [c, d] <+: (r k).contexts := by
    induction k, hk using Nat.le_induction with
    | base => exact habove
    | succ k hk ih =>
      exact ((effect_of_present (run_step hrun k)).above_stays (fun h => hnone k hk (.inl h)) ih).resolve_right
        (hwaits (k + 1) (by omega))
  obtain ⟨m, hm, hoff⟩ := hreturn n d hmain (habove.subset (by simp))
  exact hoff ((hstays m hm).subset (by simp))

/-- The first of them, up to which the append stays where it is. -/
theorem exists_first_micro_or_reset (hfair : Fair σ r) {c n : Nat} (hp : (r n).phaseOf c ≠ .idle) :
    ∃ m, n ≤ m ∧ (σ m = .reset ∨ (σ m = .micro ∧ (r m).running c = true)) ∧
      ∀ k, n ≤ k → k ≤ m → (r k).phaseOf c = (r n).phaseOf c := by
  classical
  have hexists := exists_micro_or_reset hstart hrun hfair hp
  obtain ⟨hn, hm⟩ := Nat.find_spec hexists
  exact ⟨Nat.find hexists, hn, hm, fun k hk hkm =>
    run_phaseOf_until hrun hp (fun j hj hjm h => Nat.find_min hexists hjm ⟨hj, h⟩) hk hkm⟩

/-- The context's own micro-step brings its append one nearer its end. -/
theorem run_toGo {c k : Nat} (hp : (r k).phaseOf c ≠ .idle) (hmicro : σ k = .micro) (htop : (r k).running c = true) :
    ((r (k + 1)).phaseOf c).toGo (r 0).cfg.policy + 1 = ((r k).phaseOf c).toGo (r 0).cfg.policy := by
  obtain ⟨f, l, hs, rfl, hph⟩ := top_of_running htop
  have hlegal := phase_legal_of_inv (run_states_inv hstart hrun k) (f := f) (by simp [hs])
  obtain ⟨g, hg, hctx, htogo⟩ := microStep_progress (s := { r k with inputs := [] }) hlegal hs (hph ▸ hp)
  have hstep := run_step hrun k
  rw [hmicro, step_present_micro] at hstep
  have hnext : r (k + 1) = microStep { r k with inputs := [] } := (Host.Outcome.next.inj hstep).symm
  rw [← run_cfg hrun k, ← hph, ← htogo, hnext, ← hctx, phaseOf_top _ g l hg]

/-- An append with `g` micro-steps to go, in a fair run. -/
theorem run_completes (hfair : Fair σ r) {c : Nat} (g : Nat) {n : Nat} (hp : (r n).phaseOf c ≠ .idle)
    (hg : ((r n).phaseOf c).toGo (r 0).cfg.policy = g) :
    ∃ m, n ≤ m ∧ (∀ k, n ≤ k → k ≤ m → (r k).phaseOf c ≠ .idle) ∧ (r (m + 1)).phaseOf c = .idle ∧
      (σ m = .reset ∨ (σ m = .micro ∧ (r m).running c = true)) := by
  induction g generalizing n with
  | zero => exact absurd ((toGo_eq_zero_iff _ _).mp hg) hp
  | succ g ih =>
    obtain ⟨m, hn, hm, hsame⟩ := exists_first_micro_or_reset hstart hrun hfair hp
    have hflight (k : Nat) (hk : n ≤ k) (hkm : k ≤ m) : (r k).phaseOf c ≠ .idle := hsame k hk hkm ▸ hp
    by_cases hidle : (r (m + 1)).phaseOf c = .idle
    · exact ⟨m, hn, hflight, hidle, hm⟩
    · obtain ⟨hmicro, htop⟩ := hm.resolve_left fun h => hidle (run_reset_idle hrun h c)
      have htogo := run_toGo hstart hrun (hflight m hn le_rfl) hmicro htop
      rw [hsame m hn le_rfl, hg] at htogo
      obtain ⟨m', hn', hflight', hend⟩ := ih hidle (by omega)
      refine ⟨m', by omega, fun k hk hkm => ?_, hend⟩
      by_cases hkm' : k ≤ m
      · exact hflight k hk hkm'
      · exact hflight' k (by omega) hkm

end

/-- Settles O44: by the number of micro-steps the append has to go, each of which a fair run comes to. -/
theorem fairRunsCompleteEveryAppend : Obligations.FairRunsCompleteEveryAppend :=
  fun _ _ _ _ hstart hrun hfair hp => run_completes hstart hrun hfair _ hp rfl

end Sys2Proof.Machine
end
